-- ==== Sys2Proof/Word.lean ====
section
/-! DEFINITION. Word.lean: the data the block works on (00_scope.md R8 to R10). A bit, a bitstring, a ternary
signal sample, a running level, the five line-code variants, and the widths of the command word's fields. -/

namespace Sys2Proof

/-- 00_scope.md R8: one binary digit, only 0 (`false`) or 1 (`true`). -/
abbrev Bit := Bool

/-- 00_scope.md R8: an ordered sequence of bits, element 0 first. It is never read as a number (20_memory.md R44). -/
abbrev Bitstring := List Bit

/-- 00_scope.md R10: a signal sample is one of +1, 0, -1. -/
inductive Sample where
  | pos
  | zero
  | neg
  deriving DecidableEq, Repr

/-- 10_state.md R24: a running level is +1 or -1, never 0. -/
inductive Level where
  | pos
  | neg
  deriving DecidableEq, Repr

/-- 00_scope.md R3, 30_encoding.md R63: the five line-code variants, in the spec's order. -/
inductive Variant where
  | nrzL
  | manchester
  | nrzI
  | ami
  | diffManchester
  deriving DecidableEq, Repr

/-- 30_encoding.md R60: the command word, bits 4 down to 0. -/
abbrev CmdWord := BitVec 5

/-- 30_encoding.md R60: the field `unit`, bits 4:3 of the command word. -/
abbrev UnitField := BitVec 2

/-- 30_encoding.md R60: the field `tag`, bits 2:0 of the command word. -/
abbrev TagField := BitVec 3

end Sys2Proof
end

