-- ==== Sys2Proof/Config.lean ====
section
/-! DEFINITION. Config.lean: what the spec leaves open and the model leaves open too. `NMAX` is taken unbounded
(assumption log 5) and `BUS_PROTOCOL` is not observable (assumption log 8), so one parameter remains. -/

namespace Sys2Proof

/-- DESIGN CHOICE, safe (assumption log 4). The parameter `NOISE_SOURCE` (00_scope.md section 4; 41_noise.md R101, R102): the index the noise source
answers to its `n`-th draw no test harness answered, for an operand of `m + 1` elements. It has no body, so nothing can
be proved of it but what its type says: it lies in `[0, m + 1)`. -/
opaque Config.noiseDraw (n m : Nat) : Fin (m + 1)

end Sys2Proof
end

