-- ==== Sys2Proof/Syntax.lean ====
section
/-! DEFINITION. Syntax.lean: the instructions, one constructor per row of spec/opcode_table.json, and the command
record that carries one (10_state.md R28). -/

namespace Sys2Proof

/-- The eleven rows of the opcode table (30_encoding.md R61). The `tag` of HENC, HDEC and NFLIP is kept, although
the block ignores it (R64), so that no bit of the word is lost between decoding and encoding. -/
inductive Instr where
  | henc (tag : TagField)
  | hdec (tag : TagField)
  | nflip (tag : TagField)
  | lnrzl
  | lman
  | lnrzi
  | lami
  | ldman
  | lrsvd5
  | lrsvd6
  | lrsvd7
  deriving DecidableEq, Repr

/-- 10_state.md R28: the command record. `din` is the operand port; its elements at indices `len` and above are not
part of the operand (20_memory.md R50). `len` is a natural number because `NMAX` is open (assumption log 5). -/
structure Command where
  cmd : CmdWord
  len : Nat
  din : List Bit
  deriving DecidableEq, Repr

/-- The mnemonic of an instruction, as spec/opcode_table.json spells it (30_encoding.md R61). -/
def Instr.mnemonic : Instr → String
  | .henc _ => "HENC"
  | .hdec _ => "HDEC"
  | .nflip _ => "NFLIP"
  | .lnrzl => "LNRZL"
  | .lman => "LMAN"
  | .lnrzi => "LNRZI"
  | .lami => "LAMI"
  | .ldman => "LDMAN"
  | .lrsvd5 => "LRSVD5"
  | .lrsvd6 => "LRSVD6"
  | .lrsvd7 => "LRSVD7"

end Sys2Proof
end

