-- ==== Sys2Proof/WellFormed.lean ====
section
/-! DEFINITION. WellFormed.lean: what a command record must satisfy to be one. Every value of `Instr` is
well-formed by its type (a tag is three bits), so the only check is on the record around the word. -/

namespace Sys2Proof

/-- 10_state.md R28: a command carries the elements `din[0 .. len-1]`, so its operand port has at least `len` of
them. A record that has fewer is no command (assumption log 6). -/
def Command.wf (c : Command) : Bool :=
  decide (c.len ≤ c.din.length)

end Sys2Proof
end

