-- ==== Sys2Proof/Decode.lean ====
section
/-! DEFINITION. Decode.lean: the command word (30_encoding.md R60 to R64, R68). The decoder is total on the 32 words;
a number that is no 5-bit word is rejected by name. After it the encoder, and the opcode table's match and mask. -/

namespace Sys2Proof

/-- 30_encoding.md R60: `unit = cmd[4:3]`. -/
def unitOf (w : CmdWord) : UnitField := w.extractLsb' 3 2

/-- 30_encoding.md R60: `tag = cmd[2:0]`. -/
def tagOf (w : CmdWord) : TagField := w.extractLsb' 0 3

/-- 30_encoding.md R63, R118: what each tag selects in the line-code unit. -/
def decodeLineTag (t : TagField) : Instr :=
  match t.toNat with
  | 0 => .lnrzl
  | 1 => .lman
  | 2 => .lnrzi
  | 3 => .lami
  | 4 => .ldman
  | 5 => .lrsvd5
  | 6 => .lrsvd6
  | _ => .lrsvd7

/-- 30_encoding.md R61, R62, R68: the instruction of a command word. Total: each of the 32 words has one meaning. -/
def decodeWord (w : CmdWord) : Instr :=
  match (unitOf w).toNat with
  | 0 => .henc (tagOf w)
  | 1 => .hdec (tagOf w)
  | 2 => .nflip (tagOf w)
  | _ => decodeLineTag (tagOf w)

/-- Why a number is not decoded. -/
inductive DecodeError where
  /-- The number does not fit the 5 bits of a command word (30_encoding.md R60). Safe: it is no command. -/
  | widerThanCommandWord
  deriving DecidableEq, Repr

/-- The instruction whose command word has the value `w`, or the name of why there is none. -/
def decode (w : Nat) : Except DecodeError Instr :=
  if w < 32 then .ok (decodeWord (BitVec.ofNat 5 w)) else .error .widerThanCommandWord

/-- The instruction read from a word given by its lowest `nbits` bits, bit 0 of `w` being `cmd[0]`. -/
def decodeTableWord (nbits w : Nat) : Option Instr :=
  match decode (w % 2 ^ nbits) with
  | .ok i => some i
  | .error _ => none

/-- 30_encoding.md R60: `cmd` is written `uuttt`, the unit first. -/
def wordOf (u : UnitField) (t : TagField) : CmdWord := u ++ t

/-- 30_encoding.md R61: the command word of an instruction. -/
def encode : Instr → CmdWord
  | .henc t => wordOf 0b00#2 t
  | .hdec t => wordOf 0b01#2 t
  | .nflip t => wordOf 0b10#2 t
  | .lnrzl => wordOf 0b11#2 0b000#3
  | .lman => wordOf 0b11#2 0b001#3
  | .lnrzi => wordOf 0b11#2 0b010#3
  | .lami => wordOf 0b11#2 0b011#3
  | .ldman => wordOf 0b11#2 0b100#3
  | .lrsvd5 => wordOf 0b11#2 0b101#3
  | .lrsvd6 => wordOf 0b11#2 0b110#3
  | .lrsvd7 => wordOf 0b11#2 0b111#3

/-- One row of spec/opcode_table.json: it selects a word `w` when `w AND mask = match` (30_encoding.md R61). -/
structure OpcodeRow where
  mnemonic : String
  matched : CmdWord
  mask : CmdWord
  deriving DecidableEq, Repr

/-- 30_encoding.md R61: `w AND mask = match`. -/
def rowSelects (row : OpcodeRow) (w : CmdWord) : Bool := w &&& row.mask == row.matched

/-- spec/opcode_table.json, its eleven rows in order. -/
def opcodeRows : List OpcodeRow :=
  [ ⟨"HENC", 0b00000#5, 0b11000#5⟩, ⟨"HDEC", 0b01000#5, 0b11000#5⟩, ⟨"NFLIP", 0b10000#5, 0b11000#5⟩,
    ⟨"LNRZL", 0b11000#5, 0b11111#5⟩, ⟨"LMAN", 0b11001#5, 0b11111#5⟩, ⟨"LNRZI", 0b11010#5, 0b11111#5⟩,
    ⟨"LAMI", 0b11011#5, 0b11111#5⟩, ⟨"LDMAN", 0b11100#5, 0b11111#5⟩, ⟨"LRSVD5", 0b11101#5, 0b11111#5⟩,
    ⟨"LRSVD6", 0b11110#5, 0b11111#5⟩, ⟨"LRSVD7", 0b11111#5, 0b11111#5⟩ ]

end Sys2Proof
end

