-- ==== Sys2Proof/Machine/State.lean ====
section
/-! DEFINITION. State.lean: the response record (10_state.md R30), the state of the model, and the reasons a step can
stop. The block itself keeps nothing between operations (10_state.md R20); the state holds what stands at its ports
(commands, draws, the reset input, responses), because a step is a function of the state alone (assumption log 1). -/

namespace Sys2Proof.Machine

/-- 30_encoding.md R67: the outcome of an operation, under the spec's names. -/
inductive Status where
  | ok
  | invalidLength
  | emptyInput
  | unsupportedEncoding
  | uncorrectable
  deriving DecidableEq, Repr

/-- 60_exceptions.md R131: the faults an OPERATION can raise, with the value recorded. They are delivered as a
response (R139) and the machine goes on (R140); they are no `Fault` of the model. -/
inductive OpFault where
  /-- R132: raised by HENC and HDEC on a wrong length. Records nothing. -/
  | invalidLength
  /-- R133: raised by NFLIP on an empty operand. Records nothing. -/
  | emptyInput
  /-- R134: raised by the reserved tags of the line-code unit. Records nothing. -/
  | unsupportedEncoding
  /-- R135: raised by HDEC on a syndrome of 13, 14 or 15, which it records. -/
  | uncorrectable (info : BitVec 4)
  deriving DecidableEq, Repr

/-- 10_state.md R30: the response record. A field that the operation did not write has no value, `none`
(10_state.md R31; 93_implementation_defined.md U5). -/
structure Response where
  status : Status
  info : Option (BitVec 4)
  dlen : Option Nat
  dout : Option Bitstring
  errValid : Option Bit
  errPos : Option (BitVec 4)
  flipIdx : Option Nat
  slen : Option Nat
  sout : Option (List Sample)
  deriving DecidableEq, Repr

/-- The state of the model. The block has no persistent state (10_state.md R20), so every field is a port or the
outside world's side of one. `commands`: the host's commands not yet performed, the one presented first (10_state.md
R28, 70_reset_and_hazards.md R159). `noise`: indices a test source will answer (10_state.md R29). `freeDraws`: how
many draws the open noise source has answered (the model's counter for the free value, assumption log 4). `rst`: the
reset input is asserted (70_reset_and_hazards.md R150). `responses`: the responses delivered, oldest first; the last
one stands at the port (10_state.md R30, assumption log 3). No operation reads `responses`. -/
structure State where
  commands : List Command
  noise : List Nat
  freeDraws : Nat
  rst : Bool
  responses : List Response
  deriving DecidableEq, Repr

/-- Why the model stops. No rule of the spec stops the block (60_exceptions.md R140, 70_reset_and_hazards.md R161). -/
inductive Fault where
  /-- Raised by a meaning that is called in a state with no command presented, where there is no operand to read.
  `step` never calls one there. Safe: nothing is claimed of such a call. -/
  | noCommand
  deriving DecidableEq, Repr

/-- Why the model gives no meaning. -/
inductive Refusal where
  /-- An instruction without a meaning yet. Raised by an arm of `exec` alone. Safe. -/
  | notModelled (mnemonic : String)
  /-- The record presented has fewer than `len` elements of `din`, so it is no command of 10_state.md R28 (assumption
  log 6). Raised by every operation that reads its operand. Safe: no hardware can be given such a record. -/
  | malformedCommand
  deriving DecidableEq, Repr

/-- 70_reset_and_hazards.md R150, 10_state.md R34: after reset the block is idle, nothing is presented and no response
has been delivered. DESIGN CHOICE (assumption log 4): no draw is supplied and the counter of free draws is 0. -/
def State.reset : State :=
  { commands := [], noise := [], freeDraws := 0, rst := false, responses := [] }

end Sys2Proof.Machine
end

