-- ==== Sys2Proof/Machine/Flags.lean ====
section
/-! DEFINITION. Flags.lean: the outcome flags and the response records. The block has no flags but the fields `status`
and `err_valid` of a response (10_state.md R27). One builder per kind of response says which fields have a value
(10_state.md R30), and the transport codes of 30_encoding.md R66 and R67 stand beside them. -/

namespace Sys2Proof.Machine

/-- 30_encoding.md R67: the code of a status. -/
def statusCode : Status → BitVec 3
  | .ok => 0#3
  | .invalidLength => 1#3
  | .emptyInput => 2#3
  | .unsupportedEncoding => 3#3
  | .uncorrectable => 4#3

/-- 30_encoding.md R66: the two-bit code of a sample. -/
def sampleCode : Sample → BitVec 2
  | .pos => 0b01#2
  | .zero => 0b00#2
  | .neg => 0b11#2

/-- 60_exceptions.md R131: the status a fault is delivered with. -/
def faultStatus : OpFault → Status
  | .invalidLength => .invalidLength
  | .emptyInput => .emptyInput
  | .unsupportedEncoding => .unsupportedEncoding
  | .uncorrectable _ => .uncorrectable

/-- 60_exceptions.md R131: the value a fault records in `info`. -/
def faultInfo : OpFault → Option (BitVec 4)
  | .invalidLength => none
  | .emptyInput => none
  | .unsupportedEncoding => none
  | .uncorrectable info => some info

/-- A response of which only the status has a value. -/
def bareResponse (st : Status) : Response :=
  { status := st, info := none, dlen := none, dout := none, errValid := none, errPos := none, flipIdx := none,
    slen := none, sout := none }

/-- 60_exceptions.md R130, 10_state.md R31: a fault is delivered as its status, `info` where it records one, and
nothing else. -/
def faultResponse (f : OpFault) : Response :=
  { bareResponse (faultStatus f) with info := faultInfo f }

/-- 40_blockcode.md R82: what HENC writes on success. -/
def encodedResponse (dout : Bitstring) : Response :=
  { bareResponse .ok with dlen := some dout.length, dout := some dout }

/-- 40_blockcode.md R86, R87: what HDEC writes on success. `pos` is 0 when no error is reported, else the 1-based
position corrected; `err_valid` says which. -/
def decodedResponse (dout : Bitstring) (pos : Nat) : Response :=
  { bareResponse .ok with
    dlen := some dout.length, dout := some dout, errValid := some (pos != 0), errPos := some (BitVec.ofNat 4 pos) }

/-- 41_noise.md R100: what NFLIP writes on success. -/
def flippedResponse (dout : Bitstring) (k : Nat) : Response :=
  { bareResponse .ok with dlen := some dout.length, dout := some dout, flipIdx := some k }

/-- 42_linecode.md R110: what a line-code operation writes. -/
def samplesResponse (sout : List Sample) : Response :=
  { bareResponse .ok with slen := some sout.length, sout := some sout }

end Sys2Proof.Machine
end

