-- ==== Sys2Proof/Machine/Operands.lean ====
section
/-! DEFINITION. Operands.lean: how an operation reads its operand, and the primitives of 00_scope.md R10 and R11 on
bits, bitstrings and levels. -/

namespace Sys2Proof.Machine

/-- 20_memory.md R42, R50: the operand is `din[0 .. len-1]`; elements beyond `len` are not read. -/
def operandOf (c : Command) : Bitstring := c.din.take c.len

/-- 00_scope.md R11: `s[i]`. Every rule that uses it does so for `i < len(s)` only. -/
def bitAt (s : Bitstring) (i : Nat) : Bit := s.getD i false

/-- 00_scope.md R11: `flip(s, i)`, equal to `s` but for element `i`, which is inverted. -/
def flipAt : Bitstring → Nat → Bitstring
  | [], _ => []
  | b :: s, 0 => (!b) :: s
  | b :: s, i + 1 => b :: flipAt s i

/-- 00_scope.md R11: the exclusive OR of the elements of `s` at the given indices (40_blockcode.md R81, R84). -/
def xorAt (s : Bitstring) (indices : List Nat) : Bit :=
  indices.foldl (fun acc i => acc ^^ bitAt s i) false

/-- 00_scope.md R10: `neg(v)`, the level of opposite sign. -/
def negLevel : Level → Level
  | .pos => .neg
  | .neg => .pos

/-- 10_state.md R24: a running level is emitted as the sample of the same sign. -/
def levelSample : Level → Sample
  | .pos => .pos
  | .neg => .neg

/-- 20_memory.md R46: the smallest operand length an operation accepts (8, 12 and 1; any length for the line codes,
and the reserved words do not look). -/
def leastLength : Instr → Nat
  | .henc _ => 8
  | .hdec _ => 12
  | .nflip _ => 1
  | .lnrzl => 0
  | .lman => 0
  | .lnrzi => 0
  | .lami => 0
  | .ldman => 0
  | .lrsvd5 => 0
  | .lrsvd6 => 0
  | .lrsvd7 => 0

end Sys2Proof.Machine
end

