-- ==== Sys2Proof/Machine/Ops.lean ====
section
/-! DEFINITION. Ops.lean: the named operations every meaning is built from: taking the command presented, taking a
draw, answering, raising a fault, and the two things the outside does to the block (presenting, reset). -/

namespace Sys2Proof.Machine

/-- The outcome of a step of this machine. -/
abbrev Result := Host.Outcome State Fault Refusal

/-- The commands still to be performed become `cs`. -/
def State.setCommands (cs : List Command) (s : State) : State := { s with commands := cs }

/-- The draws still to be supplied become `ks`. -/
def State.setNoise (ks : List Nat) (s : State) : State := { s with noise := ks }

/-- The open noise source has answered one more draw. -/
def State.countFreeDraw (s : State) : State := { s with freeDraws := s.freeDraws + 1 }

/-- The reset input becomes `b`. -/
def State.setRst (b : Bool) (s : State) : State := { s with rst := b }

/-- A response is delivered: it becomes the last one. -/
def State.deliver (r : Response) (s : State) : State := { s with responses := s.responses ++ [r] }

/-- 00_scope.md R11 `respond(...)`, 20_memory.md R49: end the operation with its one response. -/
def respond (r : Response) (s : State) : Result := .next (s.deliver r)

/-- 00_scope.md R11 `raise`, 60_exceptions.md R139: TAKING A FAULT. It saves no state, changes no mode and transfers
control nowhere; it is the response with a status that is not OK. There is no return from it, since nothing was
entered (R140): the next step takes the next command. -/
def raise (f : OpFault) (s : State) : Result := respond (faultResponse f) s

/-- 10_state.md R28: the command presented leaves the port and the operation `k` is performed on it. The operand is
not looked at. -/
def withCommand (k : Command → State → Result) (s : State) : Result :=
  match s.commands with
  | [] => .fault .noCommand
  | c :: rest => k c (s.setCommands rest)

/-- The command presented leaves the port and the operation `k` is performed on its operand, read whole
(20_memory.md R48, R49). A record without the elements it announces is refused (assumption log 6). -/
def withOperand (k : Bitstring → State → Result) (s : State) : Result :=
  withCommand (fun c t => if c.wf then k (operandOf c) t else .refused .malformedCommand) s

/-- 41_noise.md R101: an index in `[0, m + 1)` that the open noise source answers, and the state after it. -/
def freeDraw (m : Nat) (s : State) : Nat × State :=
  ((Config.noiseDraw s.freeDraws m).val, s.countFreeDraw)

/-- 10_state.md R29, 41_noise.md R101: the draw for an operand of `m + 1` elements, and the state after it. The next
index a test source supplies is the draw if it is in range; an index out of range is never drawn, so it is dropped,
and then, or when none is supplied, the draw is free (assumption log 4). -/
def drawIndex (m : Nat) (s : State) : Nat × State :=
  match s.noise with
  | [] => freeDraw m s
  | k :: ks => if k < m + 1 then (k, s.setNoise ks) else freeDraw m (s.setNoise ks)

/-- 20_memory.md R53: the word of the command presented, if one is. -/
def presentedWord (s : State) : Option CmdWord := s.commands.head?.map Command.cmd

/-- The host presents a command after those it has presented before. -/
def present (c : Command) (s : State) : State := s.setCommands (s.commands ++ [c])

/-- The response at the port: the last one delivered, none before the first (10_state.md R34). A reset after the first
leaves it there (DESIGN CHOICE, assumption log 14). -/
def responseAtPort (s : State) : Option Response := s.responses.getLast?

/-- 70_reset_and_hazards.md R150: a reset abandons the operation in progress, of which no response is delivered, and
leaves the block idle and ready (assumption log 10). DESIGN CHOICE, unsafe (assumption log 14): the responses delivered
before it stay, so the port (`responseAtPort`) still shows the last of them. -/
def takeReset (s : State) : State := (s.setCommands s.commands.tail).setRst false

/-- 70_reset_and_hazards.md R150, R159: with no command presented the block stays idle (assumption log 1). -/
def idle (s : State) : State := s

/-- The command record that carries the word of `i` and the shortest operand it accepts, all zeros. -/
def zeroCommand (i : Instr) : Command :=
  { cmd := encode i, len := leastLength i, din := List.replicate (leastLength i) false }

/-- The machine out of reset with `i` presented before whatever else the host has to present (assumption log 2). -/
def presentFirst (i : Instr) (s : State) : State :=
  (s.setCommands (zeroCommand i :: s.commands)).setRst false

end Sys2Proof.Machine
end

