-- ==== Sys2Proof/Machine/BlockCode.lean ====
section
/-! DEFINITION. BlockCode.lean: the block code unit, HENC and HDEC (40_blockcode.md). -/

namespace Sys2Proof.Machine

/-- 40_blockcode.md R81: the index set `P0` into the data block. -/
def parity0Set : List Nat := [0, 1, 3, 4, 6]
/-- 40_blockcode.md R81: the index set `P1`. -/
def parity1Set : List Nat := [0, 2, 3, 5, 6]
/-- 40_blockcode.md R81: the index set `P2`. -/
def parity2Set : List Nat := [1, 2, 3, 7]
/-- 40_blockcode.md R81: the index set `P3`. -/
def parity3Set : List Nat := [4, 5, 6, 7]

/-- 40_blockcode.md R80, R82: the protected block of a data block of eight elements. -/
def encodeBlock (d : Bitstring) : Bitstring :=
  [ xorAt d parity0Set, xorAt d parity1Set, bitAt d 0, xorAt d parity2Set, bitAt d 1, bitAt d 2, bitAt d 3,
    xorAt d parity3Set, bitAt d 4, bitAt d 5, bitAt d 6, bitAt d 7 ]

/-- 40_blockcode.md R84: the index set `S1` into the received block. -/
def syndrome1Set : List Nat := [0, 2, 4, 6, 8, 10]
/-- 40_blockcode.md R84: the index set `S2`. -/
def syndrome2Set : List Nat := [1, 2, 5, 6, 9, 10]
/-- 40_blockcode.md R84: the index set `S4`. -/
def syndrome4Set : List Nat := [3, 4, 5, 6, 11]
/-- 40_blockcode.md R84: the index set `S8`. -/
def syndrome8Set : List Nat := [7, 8, 9, 10, 11]

/-- 40_blockcode.md R85: `s1 + 2*s2 + 4*s4 + 8*s8`, in `0..15`. -/
def syndrome (r : Bitstring) : Nat :=
  (xorAt r syndrome1Set).toNat + 2 * (xorAt r syndrome2Set).toNat + 4 * (xorAt r syndrome4Set).toNat
    + 8 * (xorAt r syndrome8Set).toNat

/-- 40_blockcode.md R90: the indices of the data elements in a protected block. -/
def dataIndices : List Nat := [2, 4, 5, 6, 8, 9, 10, 11]

/-- 40_blockcode.md R90: the data elements of a protected block. -/
def extractData (r : Bitstring) : Bitstring := dataIndices.map (bitAt r)

/-- 40_blockcode.md R86 to R89: the response of HDEC to a block of twelve elements or the fault it raises. -/
def decodeBlock (r : Bitstring) (s : State) : Result :=
  if syndrome r = 0 then respond (decodedResponse (extractData r) 0) s
  else if syndrome r ≤ 12 then
    respond (decodedResponse (extractData (flipAt r (syndrome r - 1))) (syndrome r)) s
  else raise (.uncorrectable (BitVec.ofNat 4 (syndrome r))) s

/-- 40_blockcode.md R82: HENC. The tag is ignored (30_encoding.md R64). -/
def execHenc (_tag : TagField) (s : State) : Result :=
  withOperand (fun d t => if d.length = 8 then respond (encodedResponse (encodeBlock d)) t
    else raise .invalidLength t) s

/-- 40_blockcode.md R86: HDEC. The tag is ignored (30_encoding.md R64); the length is checked before the syndrome
(60_exceptions.md R137). -/
def execHdec (_tag : TagField) (s : State) : Result :=
  withOperand (fun r t => if r.length = 12 then decodeBlock r t else raise .invalidLength t) s

end Sys2Proof.Machine
end

