-- ==== Sys2Proof/Machine/LineCode.lean ====
section
/-! DEFINITION. LineCode.lean: the line-code unit, five operations and three reserved tags (42_linecode.md). -/

namespace Sys2Proof.Machine

/-- 10_state.md R24, R25, R34: what a line-code operation holds while it runs and no longer: the running level, the
bit counter and the samples so far. It is made anew by every operation and is no part of the state. -/
structure LineCall where
  lvl : Level
  i : Nat
  sout : List Sample
  deriving DecidableEq, Repr

/-- 10_state.md R34: its values at the start of each operation. -/
def lineStart : LineCall := { lvl := .neg, i := 0, sout := [] }

/-- 42_linecode.md R113 to R117: `step_V`, the samples of one bit and the level after it. LNRZL and LMAN leave the
level alone. -/
def stepBit (v : Variant) (b : Bit) (l : Level) : List Sample × Level :=
  match v, b with
  | .nrzL, true => ([.pos], l)
  | .nrzL, false => ([.neg], l)
  | .manchester, true => ([.pos, .neg], l)
  | .manchester, false => ([.neg, .pos], l)
  | .nrzI, true => ([levelSample (negLevel l)], negLevel l)
  | .nrzI, false => ([levelSample l], l)
  | .ami, true => ([levelSample (negLevel l)], negLevel l)
  | .ami, false => ([.zero], l)
  | .diffManchester, false => ([levelSample (negLevel l), levelSample l], l)
  | .diffManchester, true => ([levelSample l, levelSample (negLevel l)], negLevel l)

/-- 42_linecode.md R111, 10_state.md R25: handling one bit appends its samples and advances the counter. -/
def handleBit (v : Variant) (c : LineCall) (b : Bit) : LineCall :=
  { lvl := (stepBit v b c.lvl).2, i := c.i + 1, sout := c.sout ++ (stepBit v b c.lvl).1 }

/-- 42_linecode.md R111: every variant is a left fold over the operand. -/
def lineCall (v : Variant) (d : Bitstring) : LineCall := d.foldl (handleBit v) lineStart

/-- 42_linecode.md R110, R111: the samples of an operand. -/
def lineSamples (v : Variant) (d : Bitstring) : List Sample := (lineCall v d).sout

/-- 42_linecode.md R110: a line-code operation, which never faults. -/
def encodeLine (v : Variant) (s : State) : Result :=
  withOperand (fun d t => respond (samplesResponse (lineSamples v d)) t) s

/-- 42_linecode.md R118, 60_exceptions.md R137: a reserved tag, examined before the operand. -/
def reservedTag (s : State) : Result := withCommand (fun _ t => raise .unsupportedEncoding t) s

/-- 42_linecode.md R113: LNRZL. -/
def execLnrzl (s : State) : Result := encodeLine .nrzL s

/-- 42_linecode.md R114: LMAN. -/
def execLman (s : State) : Result := encodeLine .manchester s

/-- 42_linecode.md R115: LNRZI. -/
def execLnrzi (s : State) : Result := encodeLine .nrzI s

/-- 42_linecode.md R116: LAMI. -/
def execLami (s : State) : Result := encodeLine .ami s

/-- 42_linecode.md R117: LDMAN. -/
def execLdman (s : State) : Result := encodeLine .diffManchester s

/-- 42_linecode.md R118: the reserved tag 5. -/
def execLrsvd5 (s : State) : Result := reservedTag s

/-- 42_linecode.md R118: the reserved tag 6. -/
def execLrsvd6 (s : State) : Result := reservedTag s

/-- 42_linecode.md R118: the reserved tag 7. -/
def execLrsvd7 (s : State) : Result := reservedTag s

end Sys2Proof.Machine
end

