-- ==== Sys2Proof/Machine/Noise.lean ====
section
/-! DEFINITION. Noise.lean: the noise unit, NFLIP (41_noise.md). -/

namespace Sys2Proof.Machine

/-- 41_noise.md R100: the flipper, on the index the selector settled on and the state after the draw. -/
def flipDrawn (d : Bitstring) (drawn : Nat × State) : Result :=
  respond (flippedResponse (flipAt d drawn.1) drawn.1) drawn.2

/-- 41_noise.md R100: NFLIP. The tag is ignored (30_encoding.md R64); an empty operand takes no draw
(60_exceptions.md R133). -/
def execNflip (_tag : TagField) (s : State) : Result :=
  withOperand (fun d t =>
    match d.length with
    | 0 => raise .emptyInput t
    | m + 1 => flipDrawn d (drawIndex m t)) s

end Sys2Proof.Machine
end

