-- ==== Sys2Proof/Machine/Dispatch.lean ====
section
/-! DEFINITION. Dispatch.lean: one arm per row of the opcode table (30_encoding.md R61, R71). -/

namespace Sys2Proof.Machine

def exec (i : Instr) (s : State) : Host.Outcome State Fault Refusal :=
  match i with
  | .henc tag => Sys2Proof.Machine.execHenc tag s
  | .hdec tag => Sys2Proof.Machine.execHdec tag s
  | .nflip tag => Sys2Proof.Machine.execNflip tag s
  | .lnrzl => Sys2Proof.Machine.execLnrzl s
  | .lman => Sys2Proof.Machine.execLman s
  | .lnrzi => Sys2Proof.Machine.execLnrzi s
  | .lami => Sys2Proof.Machine.execLami s
  | .ldman => Sys2Proof.Machine.execLdman s
  | .lrsvd5 => Sys2Proof.Machine.execLrsvd5 s
  | .lrsvd6 => Sys2Proof.Machine.execLrsvd6 s
  | .lrsvd7 => Sys2Proof.Machine.execLrsvd7 s

end Sys2Proof.Machine
end

