-- ==== Sys2Proof/Machine/Step.lean ====
section
/-! DEFINITION. Step.lean: one step of the machine: a reset if its input is asserted, else the command presented, performed
whole (20_memory.md R49, 70_reset_and_hazards.md R159), else nothing. -/

namespace Sys2Proof.Machine

/-- One step. 70_reset_and_hazards.md R150: an asserted reset is taken instead of the operation in progress.
30_encoding.md R71: otherwise the word presented is decoded and its operation performed. -/
def step (s : State) : Host.Outcome State Fault Refusal :=
  if s.rst then .next (takeReset s)
  else
    match presentedWord s with
    | none => .next (idle s)
    | some w => exec (decodeWord w) s

/-- `s` with the instruction of the word presented next, the reset input not asserted. A number that is no command
word leaves `s` as it is. -/
def State.withFetchWord (s : State) (nbits w : Nat) : State :=
  match decodeTableWord nbits w with
  | some i => presentFirst i s
  | none => s

end Sys2Proof.Machine
end

