-- ==== Sys2Proof/Safety.lean ====
section
/-! DEFINITION. Safety.lean: the terms the statements use. What it is for a state to present a command, what a state
becomes when the command has been answered and nothing else has happened, the invariant of the machine, and reference
descriptions of the results, written from the spec apart from the operations that compute them. -/

namespace Sys2Proof.Safety

open Sys2Proof Sys2Proof.Machine

/-- The state presents the command `c`, a command of 10_state.md R28, before the commands `rest`. -/
def Presents (s : State) (c : Command) (rest : List Command) : Prop :=
  s.commands = c :: rest ∧ c.wf = true

/-- The state after the command in front of `rest` has been answered with `r`: the command has left, the response is
delivered, and the draws, the free-draw counter and the reset input are as they were. -/
def afterAnswer (s : State) (rest : List Command) (r : Response) : State :=
  { s with commands := rest, responses := s.responses ++ [r] }

/-- 10_state.md R31: a response whose status has a value and no other field. -/
def statusOnly (st : Status) : Response :=
  { status := st, info := none, dlen := none, dout := none, errValid := none, errPos := none, flipIdx := none,
    slen := none, sout := none }

/-- 30_encoding.md R60: bits 4:3 of the command word, as a number. -/
def unitNumber (c : Command) : Nat := c.cmd.toNat / 8

/-- 30_encoding.md R60: bits 2:0 of the command word, as a number. -/
def tagNumber (c : Command) : Nat := c.cmd.toNat % 8

/-- 40_blockcode.md R80, R81: the protected block of the data block `d`, element by element. -/
def codeword (d : Bitstring) : Bitstring :=
  [ d.getD 0 false ^^ d.getD 1 false ^^ d.getD 3 false ^^ d.getD 4 false ^^ d.getD 6 false,
    d.getD 0 false ^^ d.getD 2 false ^^ d.getD 3 false ^^ d.getD 5 false ^^ d.getD 6 false,
    d.getD 0 false,
    d.getD 1 false ^^ d.getD 2 false ^^ d.getD 3 false ^^ d.getD 7 false,
    d.getD 1 false, d.getD 2 false, d.getD 3 false,
    d.getD 4 false ^^ d.getD 5 false ^^ d.getD 6 false ^^ d.getD 7 false,
    d.getD 4 false, d.getD 5 false, d.getD 6 false, d.getD 7 false ]

/-- How many of the elements of `r` at the given indices are 1, modulo 2. -/
def parityAt (r : Bitstring) (indices : List Nat) : Nat :=
  indices.countP (fun i => r.getD i false) % 2

/-- 40_blockcode.md R84, R85: the syndrome of a received block. -/
def syndromeOf (r : Bitstring) : Nat :=
  parityAt r [0, 2, 4, 6, 8, 10] + 2 * parityAt r [1, 2, 5, 6, 9, 10] + 4 * parityAt r [3, 4, 5, 6, 11]
    + 8 * parityAt r [7, 8, 9, 10, 11]

/-- 40_blockcode.md R90: the data elements of a protected block. -/
def dataOf (r : Bitstring) : Bitstring := [2, 4, 5, 6, 8, 9, 10, 11].map fun i => r.getD i false

/-- 00_scope.md R11: `x` is `flip(s, k)`: as long as `s`, different at `k` and equal everywhere else. -/
def IsFlip (s : Bitstring) (k : Nat) (x : Bitstring) : Prop :=
  x.length = s.length ∧ x[k]? = s[k]?.map (!·) ∧ ∀ i, i ≠ k → x[i]? = s[i]?

/-- The number of indices at which two bitstrings differ. -/
def distance (a b : Bitstring) : Nat := (List.zipWith (fun x y => x ^^ y) a b).count true

/-- The number of ones of a bitstring is odd. -/
def oddOnes (d : Bitstring) : Bool := d.count true % 2 == 1

/-- The sample of a level: +1 when it is up, -1 when it is not. -/
def sampleOf (up : Bool) : Sample := if up then .pos else .neg

/-- The sample of opposite sign (00_scope.md R10), 0 left as it is. -/
def opposite : Sample → Sample
  | .pos => .neg
  | .zero => .zero
  | .neg => .pos

/-- 42_linecode.md R113, bit by bit. -/
def nrzlReference : Bitstring → List Sample
  | [] => []
  | b :: d => (if b then Sample.pos else Sample.neg) :: nrzlReference d

/-- 42_linecode.md R114, bit by bit. -/
def manchesterReference : Bitstring → List Sample
  | [] => []
  | b :: d => (if b then [Sample.pos, Sample.neg] else [Sample.neg, Sample.pos]) ++ manchesterReference d

/-- 42_linecode.md R115, bit by bit, from a running level. -/
def nrziReference (up : Bool) : Bitstring → List Sample
  | [] => []
  | true :: d => sampleOf (!up) :: nrziReference (!up) d
  | false :: d => sampleOf up :: nrziReference up d

/-- 42_linecode.md R116, bit by bit, from a running polarity. -/
def amiReference (up : Bool) : Bitstring → List Sample
  | [] => []
  | true :: d => sampleOf (!up) :: amiReference (!up) d
  | false :: d => Sample.zero :: amiReference up d

/-- 42_linecode.md R117, bit by bit, from a running level. -/
def diffManchesterReference (up : Bool) : Bitstring → List Sample
  | [] => []
  | false :: d => sampleOf (!up) :: sampleOf up :: diffManchesterReference up d
  | true :: d => sampleOf up :: sampleOf (!up) :: diffManchesterReference (!up) d

/-- The record of a successful line-code operation (42_linecode.md R110). -/
def lineAnswer (sout : List Sample) : Response :=
  { statusOnly .ok with slen := some sout.length, sout := some sout }

/-- 10_state.md R30, R31: what holds of every response the block delivers. The lengths count their sequences; on a
fault only the status and, for `Uncorrectable`, `info` have a value, and `info` is 13 to 15; `err_pos` is at most 12
and 0 exactly when `err_valid` is 0; `flip_idx` is an index of `dout`. -/
def LawfulResponse (r : Response) : Prop :=
  r.dlen = r.dout.map List.length ∧ r.slen = r.sout.map List.length ∧
  (r.status ≠ .ok → r = { statusOnly r.status with info := r.info }) ∧
  (r.info ≠ none ↔ r.status = .uncorrectable) ∧ (∀ v, r.info = some v → 13 ≤ v.toNat) ∧
  (r.errPos = none ↔ r.errValid = none) ∧
  (∀ p, r.errPos = some p → p.toNat ≤ 12 ∧ r.errValid = some (decide (p ≠ 0#4))) ∧
  (∀ k, r.flipIdx = some k → ∃ n, r.dlen = some n ∧ k < n)

/-- The invariant of the machine: what is presented are commands, and what has been delivered are lawful responses. -/
def Inv (s : State) : Prop :=
  (∀ c ∈ s.commands, c.wf = true) ∧ ∀ r ∈ s.responses, LawfulResponse r

end Sys2Proof.Safety
end

