-- ==== Sys2Proof/Certificates/Slice0/Obligations.lean ====
section
/-! DEFINITION. Obligations.lean: the statements for the provers. Each docstring says which rule of spec/ it
formalises; a statement that rests on an inference of the spec or on a choice of the model says so. -/

open Sys2Proof Sys2Proof.Machine Sys2Proof.Safety

/-! ### The command word -/

/-- 30_encoding.md R61, R68: of the table's eleven rows exactly one selects each of the 32 words, and it is the row of
the instruction the word decodes to. -/
def Obligations.EachWordSelectsExactlyItsRow : Prop :=
  ∀ w : CmdWord, (opcodeRows.filter fun row => rowSelects row w).map OpcodeRow.mnemonic = [(decodeWord w).mnemonic]

/-- 30_encoding.md R60, R61: words written out bit by bit, `uuttt`, with the instructions they stand for. The last clause
is the model's choice (assumption log 11): a number that does not fit the five bits of a command word is rejected. -/
def Obligations.WrittenWordsDecode : Prop :=
  decodeTableWord 8 0b00000 = some (.henc 0b000#3) ∧ decodeTableWord 8 0b00111 = some (.henc 0b111#3) ∧
  decodeTableWord 8 0b01000 = some (.hdec 0b000#3) ∧ decodeTableWord 8 0b10010 = some (.nflip 0b010#3) ∧
  decodeTableWord 8 0b11000 = some .lnrzl ∧ decodeTableWord 8 0b11001 = some .lman ∧
  decodeTableWord 8 0b11010 = some .lnrzi ∧ decodeTableWord 8 0b11011 = some .lami ∧
  decodeTableWord 8 0b11100 = some .ldman ∧ decodeTableWord 8 0b11101 = some .lrsvd5 ∧
  decodeTableWord 8 0b11110 = some .lrsvd6 ∧ decodeTableWord 8 0b11111 = some .lrsvd7 ∧
  decodeTableWord 8 0b100000 = none

/-- Decoding and encoding are inverse to each other in both directions, on the word and on the number the table's bits
make, at every width that holds the word: no bit of a command word is lost. That every word comes back from its
instruction rests on the model's choice to keep the tag bits R64 ignores, and the clause on widths on its reading of a
number's lowest `nbits` bits (both assumption log 11). -/
def Obligations.DecodeAndEncodeAgree : Prop :=
  (∀ i : Instr, decodeWord (encode i) = i) ∧ (∀ w : CmdWord, encode (decodeWord w) = w) ∧
  (∀ (i : Instr) (nbits : Nat), 5 ≤ nbits → decodeTableWord nbits (encode i).toNat = some i)

/-- 30_encoding.md R64: for units 0, 1 and 2 the tag is ignored: two commands that differ in their tags alone are
performed alike from the same state, and neither raises the fault of an unknown tag. -/
def Obligations.TagIgnoredOutsideLineCodeUnit : Prop :=
  ∀ (s : State) (c c' : Command) (rest : List Command),
    s.rst = false → Presents s c rest → unitNumber c ≠ 3 → unitNumber c' = unitNumber c → c'.len = c.len →
    c'.din = c.din →
    step { s with commands := c' :: rest } = step s ∧
    ∃ (t : State) (r : Response), step s = .next t ∧ t.responses = s.responses ++ [r] ∧ r.status ≠ .unsupportedEncoding

/-- 30_encoding.md R66: the sample codes; the code `10` is that of no sample. -/
def Obligations.SampleCodesAsTabled : Prop :=
  sampleCode .pos = 0b01#2 ∧ sampleCode .zero = 0b00#2 ∧ sampleCode .neg = 0b11#2 ∧
  ∀ x : Sample, sampleCode x ≠ 0b10#2

/-- The status codes of 30_encoding.md section 4 (the table's columns 'code' and 'name'), no two names sharing a code,
and 5 to 7 the code of none. -/
def Obligations.StatusCodesAsTabled : Prop :=
  statusCode .ok = 0#3 ∧ statusCode .invalidLength = 1#3 ∧ statusCode .emptyInput = 2#3 ∧
  statusCode .unsupportedEncoding = 3#3 ∧ statusCode .uncorrectable = 4#3 ∧
  ∀ x : Status, (statusCode x).toNat < 5

/-! ### Steps, reset, and what a step leaves -/

/-- With the reset input not asserted, a step performs the instruction the word presented decodes to, whatever the
state and whatever the operand; with nothing presented it changes nothing (the model's choice, assumption log 1); and
an instruction stored with `withFetchWord` is the one the next step performs (assumption log 2). -/
def Obligations.StepPerformsDecodedCommand : Prop :=
  (∀ (s : State) (c : Command) (rest : List Command), s.rst = false → s.commands = c :: rest →
    step s = exec (decodeWord c.cmd) s) ∧
  (∀ s : State, s.rst = false → s.commands = [] → step s = .next s) ∧
  (∀ (s : State) (i : Instr) (nbits : Nat), 5 ≤ nbits →
    step (s.withFetchWord nbits (encode i).toNat) = exec i (s.withFetchWord nbits (encode i).toNat))

/-- 70_reset_and_hazards.md R150, 10_state.md R34: the state after reset has nothing presented, has delivered no
response and is ready. The draws' reset values are the model's (assumption log 4) and are not stated. -/
def Obligations.ResetStateIsIdle : Prop :=
  State.reset.commands = [] ∧ State.reset.responses = [] ∧ State.reset.rst = false ∧
  responseAtPort State.reset = none

/-- A reset abandons the command in progress, if there is one: no response is delivered for it, the block is idle and
ready, and everything else is as it was, so that every command that follows is performed as if the abandoned one had
never been presented. That the reset takes the place of the whole operation is the model's reading (assumption
log 10), and so is that the responses delivered before it stay (assumption log 14). -/
def Obligations.ResetAbandonsCommandInProgress : Prop :=
  ∀ s : State, s.rst = true → step s = .next { s with commands := s.commands.tail, rst := false }

/-- 10_state.md R20: nothing an operation writes is readable by a later one. Whatever responses have been delivered
before, a step delivers the same responses and goes to the same state otherwise. -/
def Obligations.DeliveredResponsesAreNeverRead : Prop :=
  ∀ (s t : State) (earlier : List Response), step s = .next t →
    ∃ added : List Response, t.responses = s.responses ++ added ∧
      step { s with responses := earlier } = .next { t with responses := earlier ++ added }

/-- The invariant holds after reset. -/
def Obligations.InvHoldsAtReset : Prop := Inv State.reset

/-- Every step keeps the invariant: the responses delivered are lawful records of 10_state.md section 5 (their lengths
count their sequences, a fault carries its status and `info` alone, `info` is 13 to 15, `err_pos` agrees with
`err_valid`, `flip_idx` is an index of `dout`), and what stays presented are commands. -/
def Obligations.StepKeepsInv : Prop :=
  ∀ s t : State, Inv s → step s = .next t → Inv t

/-- Every command receives its response after finitely many steps: from every state whose commands are well formed, as
many steps as there are commands answer all of them, one response each, and leave the block idle. The spec's
inference in 70_reset_and_hazards.md section 3, that a command 'receives its response after finitely many steps'. -/
def Obligations.EveryCommandIsAnsweredOnce : Prop :=
  ∀ s : State, s.rst = false → (∀ c ∈ s.commands, c.wf = true) →
    ∃ (t : State) (answers : List Response), Sys2Proof.core.run s.commands.length s = .next t ∧
      t.commands = [] ∧ t.rst = false ∧ t.responses = s.responses ++ answers ∧ answers.length = s.commands.length

/-- The spec's inference 'The response is a function of the command record alone, and for NFLIP of the command record
and the draw k' (10_state.md section 5): in any two states that present the same command the responses are equal, for
NFLIP if the indices drawn are equal. -/
def Obligations.ResponseDependsOnCommandAndDrawAlone : Prop :=
  ∀ (s s' : State) (c : Command) (rest rest' : List Command),
    s.rst = false → s'.rst = false → Presents s c rest → Presents s' c rest' →
    ∃ (t t' : State) (r r' : Response), step s = .next t ∧ t.responses = s.responses ++ [r] ∧
      step s' = .next t' ∧ t'.responses = s'.responses ++ [r'] ∧
      (r.flipIdx = r'.flipIdx → r = r') ∧ (unitNumber c ≠ 2 → r = r')

/-- 20_memory.md R50: elements of the operand port at indices `len` and above are read by no operation. -/
def Obligations.PortBeyondLenIsNotRead : Prop :=
  ∀ (s : State) (c c' : Command) (rest : List Command),
    Presents s c rest → c'.cmd = c.cmd → c'.len = c.len → c'.wf = true → c'.din.take c.len = c.din.take c.len →
    step { s with commands := c' :: rest } = step s

/-- 20_memory.md section 5: two commands may be performed in either order. Each gets the same response in both orders
and the state reached is the same but for the order of delivery, if at most one of them takes a draw, that is, if one of
them is no NFLIP or has an empty operand, or if a test source supplies each of two noise commands its own index. That
the source's indices are supplied in the order of the commands, and that a draw it does not supply is the same in both
orders, is the model's choice (assumption log 4). -/
def Obligations.CommandsCommute : Prop :=
  ∀ (s : State) (c1 c2 : Command) (rest : List Command),
    s.rst = false → s.commands = c1 :: c2 :: rest → c1.wf = true → c2.wf = true →
    (unitNumber c1 ≠ 2 ∨ c1.len = 0 ∨ unitNumber c2 ≠ 2 ∨ c2.len = 0 →
      ∃ (u : State) (r1 r2 : Response),
        Sys2Proof.core.run 2 s = .next { u with responses := s.responses ++ [r1, r2] } ∧
        Sys2Proof.core.run 2 { s with commands := c2 :: c1 :: rest } =
          .next { u with responses := s.responses ++ [r2, r1] }) ∧
    (∀ (k1 k2 : Nat) (ks : List Nat), unitNumber c1 = 2 → unitNumber c2 = 2 → k1 < c1.len → k2 < c2.len →
      s.noise = k1 :: k2 :: ks →
      ∃ (u : State) (r1 r2 : Response),
        Sys2Proof.core.run 2 s = .next { u with responses := s.responses ++ [r1, r2] } ∧
        Sys2Proof.core.run 2 { s with commands := c2 :: c1 :: rest, noise := k2 :: k1 :: ks } =
          .next { u with responses := s.responses ++ [r2, r1] })

/-! ### Faults and response fields -/

/-- 60_exceptions.md R131: the complete list of faults, each raised exactly on its condition, with the value it
records. -/
def Obligations.FaultsAreExactlyThoseListed : Prop :=
  ∀ (s : State) (c : Command) (rest : List Command), s.rst = false → Presents s c rest →
    ∃ (t : State) (r : Response), step s = .next t ∧ t.responses = s.responses ++ [r] ∧
      (r.status = .invalidLength ↔ unitNumber c = 0 ∧ c.len ≠ 8 ∨ unitNumber c = 1 ∧ c.len ≠ 12) ∧
      (r.status = .emptyInput ↔ unitNumber c = 2 ∧ c.len = 0) ∧
      (r.status = .unsupportedEncoding ↔ unitNumber c = 3 ∧ 5 ≤ tagNumber c) ∧
      (r.status = .uncorrectable ↔
        unitNumber c = 1 ∧ c.len = 12 ∧ 13 ≤ syndromeOf (c.din.take c.len)) ∧
      (r.status = .uncorrectable → r.info = some (BitVec.ofNat 4 (syndromeOf (c.din.take c.len)))) ∧
      (r.status ≠ .uncorrectable → r.info = none) ∧
      (unitNumber c = 3 → tagNumber c ≤ 4 → r.status = .ok)

/-- 10_state.md R31: on a fault no data field of the response has a value. Only the status is defined, and `info` for
`Uncorrectable` and for no other. -/
def Obligations.FaultResponseHasNoDataField : Prop :=
  ∀ (s : State) (c : Command) (rest : List Command), s.rst = false → s.commands = c :: rest → c.wf = true →
    ∃ (t : State) (r : Response), step s = .next t ∧ t.responses = s.responses ++ [r] ∧
      (r.status ≠ .ok →
        r.dout = none ∧ r.dlen = none ∧ r.errValid = none ∧ r.errPos = none ∧ r.flipIdx = none ∧ r.sout = none ∧
        r.slen = none) ∧
      (r.info = none ↔ r.status ≠ .uncorrectable)

/-- The spec's inference 'The fault leaves no mark in the block' (60_exceptions.md section 4): a command that faults
changes nothing but that it has been presented and answered. No draw is taken, and the next command is performed
exactly as if the faulting one had never been presented. -/
def Obligations.FaultLeavesNoTrace : Prop :=
  ∀ (s t : State) (c : Command) (rest : List Command) (r : Response),
    s.rst = false → s.commands = c :: rest → step s = .next t → t.responses = s.responses ++ [r] →
    r.status ≠ .ok →
    t = afterAnswer s rest r ∧
    ∀ (u : State) (added : List Response), step { s with commands := rest } = .next u → u.responses = s.responses ++ added →
      step t = .next { u with responses := s.responses ++ r :: added }

/-- 10_state.md section 5, the table's column 'written by': a successful operation writes exactly the fields of its unit,
and the lengths are 12, 8, `len`, and `len` or twice `len`. -/
def Obligations.OperationsWriteTheirFields : Prop :=
  ∀ (s : State) (c : Command) (rest : List Command), s.rst = false → Presents s c rest →
    ∃ (t : State) (r : Response), step s = .next t ∧ t.responses = s.responses ++ [r] ∧
      (r.status = .ok →
        (r.dout ≠ none ↔ unitNumber c ≠ 3) ∧ r.dlen = r.dout.map List.length ∧
        (r.errValid ≠ none ↔ unitNumber c = 1) ∧ (r.errPos ≠ none ↔ unitNumber c = 1) ∧
        (r.flipIdx ≠ none ↔ unitNumber c = 2) ∧ (r.sout ≠ none ↔ unitNumber c = 3) ∧
        r.slen = r.sout.map List.length ∧ r.info = none ∧
        (unitNumber c = 0 → r.dlen = some 12) ∧ (unitNumber c = 1 → r.dlen = some 8) ∧
        (unitNumber c = 2 → r.dlen = some c.len) ∧
        (unitNumber c = 3 → r.slen = some (if tagNumber c = 1 ∨ tagNumber c = 4 then 2 * c.len else c.len)))

/-- An empty operand is `EmptyInput` for NFLIP, with no draw taken, `InvalidLength` for HENC and HDEC, and a success
with no samples for the five line codes (60_exceptions.md R133). -/
def Obligations.EmptyOperandByUnit : Prop :=
  ∀ (s : State) (c : Command) (rest : List Command) (tag : TagField), Presents s c rest → c.len = 0 →
    exec (.nflip tag) s = .next (afterAnswer s rest (statusOnly .emptyInput)) ∧
    exec (.henc tag) s = .next (afterAnswer s rest (statusOnly .invalidLength)) ∧
    exec (.hdec tag) s = .next (afterAnswer s rest (statusOnly .invalidLength)) ∧
    ∀ i : Instr, i = .lnrzl ∨ i = .lman ∨ i = .lnrzi ∨ i = .lami ∨ i = .ldman →
      exec i s = .next (afterAnswer s rest (lineAnswer []))

/-! ### The block code unit -/

/-- 40_blockcode.md R80, R81, R82: HENC answers a block of eight elements with its protected block of twelve, and any
other length with `InvalidLength` and nothing else; nothing else changes. -/
def Obligations.HencEncodesBlock : Prop :=
  ∀ (tag : TagField) (s : State) (c : Command) (rest : List Command), Presents s c rest →
    (∀ d0 d1 d2 d3 d4 d5 d6 d7 : Bit, c.din.take c.len = [d0, d1, d2, d3, d4, d5, d6, d7] →
      exec (.henc tag) s = .next (afterAnswer s rest
        { statusOnly .ok with
          dlen := some 12
          dout := some [d0 ^^ d1 ^^ d3 ^^ d4 ^^ d6, d0 ^^ d2 ^^ d3 ^^ d5 ^^ d6, d0, d1 ^^ d2 ^^ d3 ^^ d7, d1, d2, d3,
            d4 ^^ d5 ^^ d6 ^^ d7, d4, d5, d6, d7] })) ∧
    (c.len ≠ 8 → exec (.henc tag) s = .next (afterAnswer s rest (statusOnly .invalidLength)))

/-- 40_blockcode.md R84, R86 to R90: HDEC, whole. Any length but 12 is `InvalidLength`. With syndrome 0 the data elements
are answered as received, with no error; with syndrome 1 to 12 the element at that position is inverted first and the
position reported; with 13 to 15 the fault is `Uncorrectable` with the syndrome and no data. Nothing else changes. -/
def Obligations.HdecDecodesBlock : Prop :=
  ∀ (tag : TagField) (s : State) (c : Command) (rest : List Command) (r : Bitstring),
    Presents s c rest → c.din.take c.len = r →
    (c.len ≠ 12 → exec (.hdec tag) s = .next (afterAnswer s rest (statusOnly .invalidLength))) ∧
    (c.len = 12 → syndromeOf r = 0 →
      exec (.hdec tag) s = .next (afterAnswer s rest
        { statusOnly .ok with dlen := some 8, dout := some (dataOf r), errValid := some false, errPos := some 0#4 })) ∧
    (∀ x : Bitstring, c.len = 12 → 1 ≤ syndromeOf r → syndromeOf r ≤ 12 → IsFlip r (syndromeOf r - 1) x →
      exec (.hdec tag) s = .next (afterAnswer s rest
        { statusOnly .ok with
          dlen := some 8, dout := some (dataOf x), errValid := some true,
          errPos := some (BitVec.ofNat 4 (syndromeOf r)) })) ∧
    (c.len = 12 → 13 ≤ syndromeOf r →
      exec (.hdec tag) s = .next (afterAnswer s rest
        { statusOnly .uncorrectable with info := some (BitVec.ofNat 4 (syndromeOf r)) }))

/-- 60_exceptions.md R132: HENC on any length but 8 and HDEC on any length but 12 raise `InvalidLength`, and no value is
recorded with it; on those lengths they do not raise it. -/
def Obligations.InvalidLengthExactlyOnWrongBlockSize : Prop :=
  ∀ (tag : TagField) (s : State) (c : Command) (rest : List Command), Presents s c rest →
    (exec (.henc tag) s = .next (afterAnswer s rest (statusOnly .invalidLength)) ↔ c.len ≠ 8) ∧
    (exec (.hdec tag) s = .next (afterAnswer s rest (statusOnly .invalidLength)) ↔ c.len ≠ 12)

/-- The source's property 'for all 8-bit Bitstrings d, decode(encode(d)).corrected == d and errorPos == null', which the
spec infers in 40_blockcode.md section 5: what HENC answers to a block, given to HDEC in any state, gives the block back
and reports no error. -/
def Obligations.HdecInvertsHenc : Prop :=
  ∀ (tag tag' : TagField) (s s' : State) (c c' : Command) (rest rest' : List Command),
    Presents s c rest → c.len = 8 → Presents s' c' rest' →
    ∃ (t : State) (r : Response) (x : Bitstring), exec (.henc tag) s = .next t ∧ t.responses = s.responses ++ [r] ∧ r.dout = some x ∧
      (c'.din.take c'.len = x →
        exec (.hdec tag') s' = .next (afterAnswer s' rest'
          { statusOnly .ok with
            dlen := some 8, dout := some (c.din.take 8), errValid := some false, errPos := some 0#4 }))

/-- The source's property 'for all 8-bit d and all positions i in [1,12], flipping bit i of encode(d) and decoding
yields corrected == d and errorPos == i', which the spec infers in 40_blockcode.md section 5. -/
def Obligations.SingleInversionIsCorrected : Prop :=
  ∀ (tag tag' : TagField) (s s' : State) (c c' : Command) (rest rest' : List Command) (p : Nat),
    Presents s c rest → c.len = 8 → Presents s' c' rest' → 1 ≤ p → p ≤ 12 →
    ∃ (t : State) (r : Response) (x : Bitstring), exec (.henc tag) s = .next t ∧ t.responses = s.responses ++ [r] ∧ r.dout = some x ∧
      (IsFlip x (p - 1) (c'.din.take c'.len) →
        exec (.hdec tag') s' = .next (afterAnswer s' rest'
          { statusOnly .ok with
            dlen := some 8, dout := some (c.din.take 8), errValid := some true, errPos := some (BitVec.ofNat 4 p) }))

/-- What the spec infers of two inversions in 40_blockcode.md sections 3 and 5: of a codeword inverted at two positions the syndrome is
their exclusive OR, never 0; from 13 on the fault is `Uncorrectable`, and below it HDEC answers OK with data that is
not the original and a position that is neither of the two. -/
def Obligations.TwoInversionsAreNeverRecovered : Prop :=
  ∀ (tag : TagField) (s : State) (c : Command) (rest : List Command) (d x : Bitstring) (p q : Nat),
    Presents s c rest → d.length = 8 → 1 ≤ p → p ≤ 12 → 1 ≤ q → q ≤ 12 → p ≠ q →
    IsFlip (codeword d) (p - 1) x → IsFlip x (q - 1) (c.din.take c.len) →
    (p ^^^ q ≠ 0) ∧
    (13 ≤ p ^^^ q → exec (.hdec tag) s = .next (afterAnswer s rest
      { statusOnly .uncorrectable with info := some (BitVec.ofNat 4 (p ^^^ q)) })) ∧
    (p ^^^ q ≤ 12 → ∃ wrong : Bitstring, wrong ≠ d ∧ p ^^^ q ≠ p ∧ p ^^^ q ≠ q ∧
      exec (.hdec tag) s = .next (afterAnswer s rest
        { statusOnly .ok with
          dlen := some 8, dout := some wrong, errValid := some true, errPos := some (BitVec.ofNat 4 (p ^^^ q)) }))

/-- What the spec infers of the encoder in 40_blockcode.md section 1 and 2 (its properties (a), (c) and (e)): over the data blocks,
HENC is linear for the exclusive OR, and two different blocks are answered with codewords that differ in at least
three elements. -/
def Obligations.HencIsLinearWithDistanceThree : Prop :=
  ∀ (tag : TagField) (s : State) (c1 c2 c3 : Command) (rest : List Command),
    c1.wf = true → c2.wf = true → c3.wf = true → c1.len = 8 → c2.len = 8 → c3.len = 8 →
    ∃ (t1 t2 : State) (r1 r2 : Response) (x1 x2 : Bitstring),
      exec (.henc tag) { s with commands := c1 :: rest } = .next t1 ∧ t1.responses = s.responses ++ [r1] ∧
      exec (.henc tag) { s with commands := c2 :: rest } = .next t2 ∧ t2.responses = s.responses ++ [r2] ∧
      r1.dout = some x1 ∧ r2.dout = some x2 ∧
      (c1.din.take 8 ≠ c2.din.take 8 → 3 ≤ distance x1 x2) ∧
      (c3.din.take 8 = List.zipWith (fun a b => a ^^ b) (c1.din.take 8) (c2.din.take 8) →
        exec (.henc tag) { s with commands := c3 :: rest } = .next (afterAnswer s rest
          { statusOnly .ok with dlen := some 12, dout := some (List.zipWith (fun a b => a ^^ b) x1 x2) }))

/-- What the spec infers of the 4096 blocks in 40_blockcode.md section 5: HDEC answers OK exactly when the block is at most one
inversion from the codeword of some data block; that data is then what it answers, and the number of inversions is
what `err_valid` says. -/
def Obligations.HdecOkIffWithinOneInversionOfCodeword : Prop :=
  ∀ (tag : TagField) (s : State) (c : Command) (rest : List Command), Presents s c rest → c.len = 12 →
    ∃ (t : State) (r : Response), exec (.hdec tag) s = .next t ∧ t.responses = s.responses ++ [r] ∧
      (r.status = .ok ↔ ∃ d : Bitstring, d.length = 8 ∧ distance (codeword d) (c.din.take 12) ≤ 1) ∧
      (∀ d : Bitstring, d.length = 8 → distance (codeword d) (c.din.take 12) ≤ 1 →
        r.dout = some d ∧ r.errValid = some (distance (codeword d) (c.din.take 12) == 1))

/-- What the spec infers of the syndrome in 40_blockcode.md section 3 (its property (a)), seen in the responses: the position HDEC
reports, or the syndrome it records, is the exclusive OR of the 1-based positions of the elements that are 1. -/
def Obligations.ReportedSyndromeIsXorOfPositions : Prop :=
  ∀ (tag : TagField) (s : State) (c : Command) (rest : List Command) (x : BitVec 4), Presents s c rest →
    c.len = 12 →
    x = ((List.range 12).filter fun j => (c.din.take 12).getD j false).foldl
      (fun acc j => acc ^^^ BitVec.ofNat 4 (j + 1)) 0#4 →
    ∃ (t : State) (r : Response), exec (.hdec tag) s = .next t ∧ t.responses = s.responses ++ [r] ∧
      (x.toNat ≤ 12 → r.errPos = some x ∧ r.info = none) ∧ (13 ≤ x.toNat → r.info = some x ∧ r.errPos = none)

/-! ### The noise unit -/

/-- 41_noise.md R100: NFLIP on an empty operand raises `EmptyInput`; on any other it draws an index of the operand,
answers the operand with exactly that element inverted and reports the index. That of the state the next supplied index,
if there is one, and at most one free draw are used up is the model's choice (assumption log 4). -/
def Obligations.NflipInvertsOneDrawnElement : Prop :=
  ∀ (tag : TagField) (s : State) (c : Command) (rest : List Command), Presents s c rest →
    (c.len = 0 → exec (.nflip tag) s = .next (afterAnswer s rest (statusOnly .emptyInput))) ∧
    (1 ≤ c.len → ∃ (k : Nat) (x : Bitstring) (n : Nat), k < c.len ∧ IsFlip (c.din.take c.len) k x ∧ n ≤ 1 ∧
      exec (.nflip tag) s = .next
        { afterAnswer s rest
            { statusOnly .ok with dlen := some c.len, dout := some x, flipIdx := some k } with
          noise := s.noise.tail, freeDraws := s.freeDraws + n })

/-- The draw is under no law but its range (41_noise.md section 2): each index of the operand is the draw of some state
that differs in what the test source supplies alone. That a test source's index is the draw is how the model holds
'injectable for deterministic testing' (assumption log 4). -/
def Obligations.EveryIndexCanBeDrawn : Prop :=
  ∀ (tag : TagField) (s : State) (c : Command) (rest : List Command) (k : Nat) (ks : List Nat),
    Presents s c rest → k < c.len →
    ∃ x : Bitstring, IsFlip (c.din.take c.len) k x ∧
      exec (.nflip tag) { s with noise := k :: ks } = .next
        { afterAnswer s rest { statusOnly .ok with dlen := some c.len, dout := some x, flipIdx := some k } with
          noise := ks }

/-- What the spec infers in 41_noise.md section 3: NFLIP applied to its own output with the same draw restores the
operand, and with a different draw gives a stream that differs from it in exactly two elements. -/
def Obligations.NflipTwiceRestoresOrDiffersInTwo : Prop :=
  ∀ (tag tag' : TagField) (s s' : State) (c c' : Command) (rest rest' : List Command),
    Presents s c rest → 1 ≤ c.len → Presents s' c' rest' →
    ∃ (t : State) (r : Response) (x : Bitstring) (k : Nat), exec (.nflip tag) s = .next t ∧ t.responses = s.responses ++ [r] ∧ r.dout = some x ∧
      r.flipIdx = some k ∧
      (c'.din.take c'.len = x →
        ∃ (t' : State) (r' : Response) (y : Bitstring) (k' : Nat), exec (.nflip tag') s' = .next t' ∧ t'.responses = s'.responses ++ [r'] ∧ r'.dout = some y ∧
          r'.flipIdx = some k' ∧
          (k' = k → y = c.din.take c.len) ∧ (k' ≠ k → distance (c.din.take c.len) y = 2))

/-- What the spec infers in 41_noise.md section 3 and 70_reset_and_hazards.md section 2 of noise on a concatenation of
protected blocks: whatever index NFLIP draws, it hits one block, and HDEC gives back the original data of every block,
reporting the position hit in that block and no error in any other. -/
def Obligations.NoiseOnCodewordsIsCorrected : Prop :=
  ∀ (tag : TagField) (s : State) (c : Command) (rest : List Command) (blocks : List Bitstring),
    Presents s c rest → (∀ d ∈ blocks, d.length = 8) → blocks ≠ [] →
    c.din.take c.len = (blocks.map codeword).flatten →
    ∃ (t : State) (r : Response) (x : Bitstring) (k : Nat), exec (.nflip tag) s = .next t ∧ t.responses = s.responses ++ [r] ∧ r.dout = some x ∧
      r.flipIdx = some k ∧ k < 12 * blocks.length ∧
      ∀ (j : Nat) (d : Bitstring) (tag' : TagField) (s' : State) (c' : Command) (rest' : List Command),
        blocks[j]? = some d → Presents s' c' rest' → c'.din.take c'.len = (x.drop (12 * j)).take 12 →
        exec (.hdec tag') s' = .next (afterAnswer s' rest'
          { statusOnly .ok with
            dlen := some 8, dout := some d, errValid := some (decide (j = k / 12)),
            errPos := some (if j = k / 12 then BitVec.ofNat 4 (k % 12 + 1) else 0#4) })

/-! ### The line-code unit -/

/-- 42_linecode.md R113: LNRZL answers every operand, one sample a bit, +1 for a 1 and -1 for a 0; nothing else
changes. -/
def Obligations.LnrzlSamples : Prop :=
  ∀ (s : State) (c : Command) (rest : List Command), Presents s c rest →
    exec .lnrzl s = .next (afterAnswer s rest (lineAnswer (nrzlReference (c.din.take c.len))))

/-- 42_linecode.md R114: LMAN answers every operand, [+1, -1] for a 1 and [-1, +1] for a 0, so that the two samples of a
bit are of opposite sign; nothing else changes. -/
def Obligations.LmanSamples : Prop :=
  ∀ (s : State) (c : Command) (rest : List Command), Presents s c rest →
    exec .lman s = .next (afterAnswer s rest (lineAnswer (manchesterReference (c.din.take c.len)))) ∧
    ∀ i : Nat, i < c.len → ∃ x : Sample, x ≠ .zero ∧ (manchesterReference (c.din.take c.len))[2 * i]? = some x ∧
      (manchesterReference (c.din.take c.len))[2 * i + 1]? = some (opposite x)

/-- 42_linecode.md R115, its per-bit rule: LNRZI answers every operand from the level -1, inverting the level and emitting it on a
1 and emitting it as it is on a 0; nothing else changes. -/
def Obligations.LnrziSamples : Prop :=
  ∀ (s : State) (c : Command) (rest : List Command), Presents s c rest →
    exec .lnrzi s = .next (afterAnswer s rest (lineAnswer (nrziReference false (c.din.take c.len))))

/-- 42_linecode.md R116, its per-bit rule and its property: LAMI answers every operand from the polarity -1, emitting 0
on a 0 and inverting the polarity and emitting it on a 1, so that every 0 bit maps to the level 0, every 1 bit to a
nonzero level, and successive 1 bits to levels of opposite sign; nothing else changes. -/
def Obligations.LamiSamples : Prop :=
  ∀ (s : State) (c : Command) (rest : List Command) (d : Bitstring), Presents s c rest → c.din.take c.len = d →
    exec .lami s = .next (afterAnswer s rest (lineAnswer (amiReference false d))) ∧
    (∀ i : Nat, d[i]? = some false → (amiReference false d)[i]? = some .zero) ∧
    (∀ i j : Nat, i < j → d[i]? = some true → d[j]? = some true → (∀ k, i < k → k < j → d[k]? = some false) →
      ∃ x : Sample, x ≠ .zero ∧ (amiReference false d)[i]? = some x ∧ (amiReference false d)[j]? = some (opposite x))

/-- 42_linecode.md R117, its per-bit rule: LDMAN answers every operand from the level -1, emitting the inverse of the level and the level
on a 0, and the level and its inverse on a 1, which inverts it; nothing else changes. -/
def Obligations.LdmanSamples : Prop :=
  ∀ (s : State) (c : Command) (rest : List Command), Presents s c rest →
    exec .ldman s = .next (afterAnswer s rest (lineAnswer (diffManchesterReference false (c.din.take c.len))))

/-- The closed forms the spec infers from its rules of LNRZI and LAMI (42_linecode.md section 2): a sample is +1 or -1
by the parity of the ones up to its bit, and for LAMI 0 on a 0 bit. -/
def Obligations.RunningLevelClosedForms : Prop :=
  ∀ (s : State) (c : Command) (rest : List Command), Presents s c rest →
    ∃ (tn ta : State) (rn ra : Response) (xn xa : List Sample),
      exec .lnrzi s = .next tn ∧ tn.responses = s.responses ++ [rn] ∧ rn.sout = some xn ∧
      exec .lami s = .next ta ∧ ta.responses = s.responses ++ [ra] ∧ ra.sout = some xa ∧
      ∀ (i : Nat) (b : Bit), (c.din.take c.len)[i]? = some b →
        xn[i]? = some (sampleOf (oddOnes (c.din.take (i + 1)))) ∧
        xa[i]? = some (if b then sampleOf (oddOnes (c.din.take (i + 1))) else .zero)

/-- The transitions the spec infers from its rule of LDMAN (42_linecode.md section 2): every bit has one in its middle,
a 0 bit has one at its start and a 1 bit has none, the sample before the first being the initial level -1. -/
def Obligations.LdmanTransitions : Prop :=
  ∀ (s : State) (c : Command) (rest : List Command), Presents s c rest →
    ∃ (t : State) (r : Response) (x : List Sample), exec .ldman s = .next t ∧ t.responses = s.responses ++ [r] ∧ r.sout = some x ∧
      ∀ (i : Nat) (b : Bit), (c.din.take c.len)[i]? = some b →
        ∃ before first second : Sample, (Sample.neg :: x)[2 * i]? = some before ∧ x[2 * i]? = some first ∧
          x[2 * i + 1]? = some second ∧ before ≠ .zero ∧ second = opposite first ∧
          first = if b then before else opposite before

/-- 42_linecode.md R110, and the lengths of R112: the five operations answer every operand with OK, their samples and no
other field, take no draw, and give `len` samples for LNRZL, LNRZI and LAMI and twice `len` for LMAN and LDMAN, so that an
empty operand gives none; the only fault of the unit is that of a reserved tag. -/
def Obligations.LineCodesAnswerEveryOperand : Prop :=
  ∀ (i : Instr) (s : State) (c : Command) (rest : List Command), Presents s c rest →
    (i = .lnrzl ∨ i = .lnrzi ∨ i = .lami →
      ∃ x : List Sample, exec i s = .next (afterAnswer s rest (lineAnswer x)) ∧ x.length = c.len) ∧
    (i = .lman ∨ i = .ldman →
      ∃ x : List Sample, exec i s = .next (afterAnswer s rest (lineAnswer x)) ∧ x.length = 2 * c.len) ∧
    (i = .lrsvd5 ∨ i = .lrsvd6 ∨ i = .lrsvd7 →
      exec i s = .next (afterAnswer s rest (statusOnly .unsupportedEncoding)))

/-- What the spec infers in 42_linecode.md section 3: the level 0 occurs in the output of LAMI only, and there exactly
for the 0 bits. -/
def Obligations.ZeroLevelOnlyFromLami : Prop :=
  ∀ (i : Instr) (s t : State) (c : Command) (rest : List Command) (r : Response) (x : List Sample),
    Presents s c rest → exec i s = .next t → t.responses = s.responses ++ [r] → r.sout = some x →
    (i ≠ .lami → Sample.zero ∉ x) ∧
    (i = .lami → ∀ j : Nat, x[j]? = some Sample.zero ↔ (c.din.take c.len)[j]? = some false)

/-- What the spec infers of splitting a stream in 42_linecode.md section 3: encoding `a ++ b` in two commands gives the samples of
one, for every `b`, exactly when `a` holds an even number of ones, for the three variants with a running level; always
for the two without. Each of the three commands is presented in a state of its own. -/
def Obligations.SplittingAStream : Prop :=
  ∀ (i : Instr) (a : Bitstring), i = .lnrzl ∨ i = .lman ∨ i = .lnrzi ∨ i = .lami ∨ i = .ldman →
    ((∀ (b : Bitstring) (s1 s2 s3 : State) (c1 c2 c3 : Command) (rest1 rest2 rest3 : List Command),
        Presents s1 c1 rest1 → Presents s2 c2 rest2 → Presents s3 c3 rest3 → c1.din.take c1.len = a →
        c2.din.take c2.len = b → c3.din.take c3.len = a ++ b →
        ∃ x y : List Sample, exec i s1 = .next (afterAnswer s1 rest1 (lineAnswer x)) ∧
          exec i s2 = .next (afterAnswer s2 rest2 (lineAnswer y)) ∧
          exec i s3 = .next (afterAnswer s3 rest3 (lineAnswer (x ++ y)))) ↔
      (i = .lnrzl ∨ i = .lman ∨ oddOnes a = false))

/-- 42_linecode.md section 1: the samples of a bit depend on the operand up to that bit only. The samples of an operand
begin with those of every beginning of it. -/
def Obligations.SamplesDependOnEarlierBitsOnly : Prop :=
  ∀ (i : Instr) (s s' : State) (c c' : Command) (rest rest' : List Command),
    i = .lnrzl ∨ i = .lman ∨ i = .lnrzi ∨ i = .lami ∨ i = .ldman →
    Presents s c rest → Presents s' c' rest' → c.din.take c.len <+: c'.din.take c'.len →
    ∃ x y : List Sample, exec i s = .next (afterAnswer s rest (lineAnswer x)) ∧
      exec i s' = .next (afterAnswer s' rest' (lineAnswer y)) ∧ x <+: y

/-- 42_linecode.md R118: a reserved tag raises `UnsupportedEncoding` and delivers no samples, whatever `len` and `din` are.
The operand is not looked at, so that not even the record's form matters: that a record with fewer than `len` elements,
which is no command, is answered too is the model's choice (assumption log 6). For `len = 0` see assumption log 9. -/
def Obligations.ReservedTagsRaiseUnsupportedEncoding : Prop :=
  ∀ (s : State) (c : Command) (rest : List Command), s.commands = c :: rest →
    exec .lrsvd5 s = .next (afterAnswer s rest (statusOnly .unsupportedEncoding)) ∧
    exec .lrsvd6 s = .next (afterAnswer s rest (statusOnly .unsupportedEncoding)) ∧
    exec .lrsvd7 s = .next (afterAnswer s rest (statusOnly .unsupportedEncoding)) ∧
    (s.rst = false → c.cmd = 0b11101#5 ∨ c.cmd = 0b11110#5 ∨ c.cmd = 0b11111#5 →
      step s = .next (afterAnswer s rest (statusOnly .unsupportedEncoding)))
end

