-- ==== Sys2Proof/Laws/Operands.lean ====
section
/-! SUPPORT. Laws/Operands.lean: what reading an operand and flipping one element do. -/

namespace Sys2Proof.Machine

/-- The operand of a command has the length the command announces. -/
theorem operandOf_length {c : Command} (h : c.wf = true) : (operandOf c).length = c.len := by
  have := of_decide_eq_true h
  simp [operandOf, this]

@[simp] theorem flipAt_length (s : Bitstring) (k : Nat) : (flipAt s k).length = s.length := by
  induction s generalizing k with
  | nil => rfl
  | cons b s ih => cases k <;> simp [flipAt, ih]

/-- The element flipped is inverted. -/
theorem flipAt_getElem?_self (s : Bitstring) (k : Nat) : (flipAt s k)[k]? = s[k]?.map (!·) := by
  induction s generalizing k with
  | nil => rfl
  | cons b s ih => cases k <;> simp [flipAt, ih]

/-- Every other element is as it was. -/
theorem flipAt_getElem?_ne (s : Bitstring) {k i : Nat} (h : i ≠ k) : (flipAt s k)[i]? = s[i]? := by
  induction s generalizing k i with
  | nil => rfl
  | cons b s ih =>
    cases k <;> cases i <;> simp_all [flipAt]

/-- 41_noise.md R105, on the flipper. -/
@[simp] theorem flipAt_flipAt (s : Bitstring) (k : Nat) : flipAt (flipAt s k) k = s := by
  induction s generalizing k with
  | nil => rfl
  | cons b s ih => cases k <;> simp [flipAt, ih]

/-- Reading one element of a flipped bitstring, inside it. -/
theorem bitAt_flipAt (s : Bitstring) (k i : Nat) (h : k < s.length) :
    bitAt (flipAt s k) i = if i = k then !(bitAt s i) else bitAt s i := by
  unfold bitAt
  simp only [List.getD_eq_getElem?_getD]
  split
  · next e => subst e; rw [flipAt_getElem?_self]; simp [List.getElem?_eq_getElem h]
  · next e => rw [flipAt_getElem?_ne _ e]

/-- Flipping in front of a concatenation. -/
theorem flipAt_append_left (s t : Bitstring) {k : Nat} (h : k < s.length) :
    flipAt (s ++ t) k = flipAt s k ++ t := by
  induction s generalizing k with
  | nil => simp at h
  | cons b s ih => cases k <;> simp_all [flipAt]

/-- Flipping behind the first part of a concatenation. -/
theorem flipAt_append_right (s t : Bitstring) (k : Nat) :
    flipAt (s ++ t) (s.length + k) = s ++ flipAt t k := by
  induction s with
  | nil => simp
  | cons b s ih =>
    have : (b :: s).length + k = (s.length + k) + 1 := by simp; omega
    rw [this]; simp [flipAt, ih]

@[simp] theorem negLevel_negLevel (l : Level) : negLevel (negLevel l) = l := by cases l <;> rfl

end Sys2Proof.Machine
end

