-- ==== Sys2Proof/Laws/State.lean ====
section
/-! SUPPORT. Laws/State.lean: each field of the state after each update, and after reset. -/

namespace Sys2Proof.Machine

variable (s : State) (cs : List Command) (ks : List Nat) (b : Bool) (r : Response)

@[simp] theorem setCommands_commands : (s.setCommands cs).commands = cs := rfl
@[simp] theorem setCommands_noise : (s.setCommands cs).noise = s.noise := rfl
@[simp] theorem setCommands_freeDraws : (s.setCommands cs).freeDraws = s.freeDraws := rfl
@[simp] theorem setCommands_rst : (s.setCommands cs).rst = s.rst := rfl
@[simp] theorem setCommands_responses : (s.setCommands cs).responses = s.responses := rfl

@[simp] theorem setNoise_commands : (s.setNoise ks).commands = s.commands := rfl
@[simp] theorem setNoise_noise : (s.setNoise ks).noise = ks := rfl
@[simp] theorem setNoise_freeDraws : (s.setNoise ks).freeDraws = s.freeDraws := rfl
@[simp] theorem setNoise_rst : (s.setNoise ks).rst = s.rst := rfl
@[simp] theorem setNoise_responses : (s.setNoise ks).responses = s.responses := rfl

@[simp] theorem countFreeDraw_commands : s.countFreeDraw.commands = s.commands := rfl
@[simp] theorem countFreeDraw_noise : s.countFreeDraw.noise = s.noise := rfl
@[simp] theorem countFreeDraw_freeDraws : s.countFreeDraw.freeDraws = s.freeDraws + 1 := rfl
@[simp] theorem countFreeDraw_rst : s.countFreeDraw.rst = s.rst := rfl
@[simp] theorem countFreeDraw_responses : s.countFreeDraw.responses = s.responses := rfl

@[simp] theorem setRst_commands : (s.setRst b).commands = s.commands := rfl
@[simp] theorem setRst_noise : (s.setRst b).noise = s.noise := rfl
@[simp] theorem setRst_freeDraws : (s.setRst b).freeDraws = s.freeDraws := rfl
@[simp] theorem setRst_rst : (s.setRst b).rst = b := rfl
@[simp] theorem setRst_responses : (s.setRst b).responses = s.responses := rfl

@[simp] theorem deliver_commands : (s.deliver r).commands = s.commands := rfl
@[simp] theorem deliver_noise : (s.deliver r).noise = s.noise := rfl
@[simp] theorem deliver_freeDraws : (s.deliver r).freeDraws = s.freeDraws := rfl
@[simp] theorem deliver_rst : (s.deliver r).rst = s.rst := rfl
@[simp] theorem deliver_responses : (s.deliver r).responses = s.responses ++ [r] := rfl

@[simp] theorem reset_commands : State.reset.commands = [] := rfl
@[simp] theorem reset_noise : State.reset.noise = [] := rfl
@[simp] theorem reset_freeDraws : State.reset.freeDraws = 0 := rfl
@[simp] theorem reset_rst : State.reset.rst = false := rfl
@[simp] theorem reset_responses : State.reset.responses = [] := rfl

end Sys2Proof.Machine
end

