-- ==== Sys2Proof/Laws/Ops.lean ====
section
/-! SUPPORT. Laws/Ops.lean: for each shared operation, everything it can do, said once. -/

namespace Sys2Proof.Machine

@[simp] theorem respond_eq (r : Response) (s : State) : respond r s = .next (s.deliver r) := rfl

@[simp] theorem raise_eq (f : OpFault) (s : State) : raise f s = .next (s.deliver (faultResponse f)) := rfl

/-- With a command presented, the operation is performed on it. -/
theorem withCommand_presented {s : State} {c : Command} {rest : List Command} (k : Command → State → Result)
    (h : s.commands = c :: rest) : withCommand k s = k c (s.setCommands rest) := by
  simp [withCommand, h]

/-- With a well-formed command presented, the operation is performed on its operand. -/
theorem withOperand_presented {s : State} {c : Command} {rest : List Command} (k : Bitstring → State → Result)
    (h : s.commands = c :: rest) (hc : c.wf = true) :
    withOperand k s = k (operandOf c) (s.setCommands rest) := by
  simp [withOperand, withCommand_presented _ h, hc]

/-- An operation that reached a next state had a command presented. -/
theorem withCommand_next {s t : State} {k : Command → State → Result} (h : withCommand k s = .next t) :
    ∃ c rest, s.commands = c :: rest ∧ k c (s.setCommands rest) = .next t := by
  cases hs : s.commands with
  | nil => simp [withCommand, hs] at h
  | cons c rest => exact ⟨c, rest, rfl, by simpa [withCommand, hs] using h⟩

/-- An operation on the operand that reached a next state had a well-formed command presented. -/
theorem withOperand_next {s t : State} {k : Bitstring → State → Result} (h : withOperand k s = .next t) :
    ∃ c rest, s.commands = c :: rest ∧ c.wf = true ∧ k (operandOf c) (s.setCommands rest) = .next t := by
  obtain ⟨c, rest, hs, hk⟩ := withCommand_next h
  by_cases hc : c.wf = true
  · exact ⟨c, rest, hs, hc, by simpa [hc] using hk⟩
  · simp [hc] at hk

/-- The three ways a draw is taken: supplied in range; supplied out of range, dropped and free; not supplied and
free. -/
theorem drawIndex_cases (m : Nat) (s : State) :
    (∃ k ks, s.noise = k :: ks ∧ k < m + 1 ∧ drawIndex m s = (k, s.setNoise ks)) ∨
    (∃ k ks, s.noise = k :: ks ∧ ¬ k < m + 1 ∧ drawIndex m s = freeDraw m (s.setNoise ks)) ∨
    (s.noise = [] ∧ drawIndex m s = freeDraw m s) := by
  unfold drawIndex
  cases hn : s.noise with
  | nil => simp
  | cons k ks =>
    by_cases hk : k < m + 1
    · exact .inl ⟨k, ks, rfl, hk, by simp [hk]⟩
    · exact .inr (.inl ⟨k, ks, rfl, hk, by simp [hk]⟩)

/-- A draw lies in the operand, takes at most one supplied index and one free value, and touches nothing else. -/
theorem drawIndex_spec (m : Nat) (s : State) :
    (drawIndex m s).1 < m + 1 ∧
    ((drawIndex m s).2 = s.setNoise s.noise.tail ∨ (drawIndex m s).2 = (s.setNoise s.noise.tail).countFreeDraw) := by
  rcases drawIndex_cases m s with ⟨k, ks, hn, hk, e⟩ | ⟨k, ks, hn, hk, e⟩ | ⟨hn, e⟩
  · exact ⟨by simpa [e] using hk, by simp [e, hn]⟩
  · exact ⟨by rw [e]; exact (Config.noiseDraw _ _).isLt, by simp [e, hn, freeDraw]⟩
  · refine ⟨by rw [e]; exact (Config.noiseDraw _ _).isLt, .inr ?_⟩
    have : s.setNoise s.noise.tail = s := by cases s; simp_all [State.setNoise]
    rw [e, this]; rfl

/-- A supplied index in range is the draw. -/
theorem drawIndex_supplied {m k : Nat} {ks : List Nat} {s : State} (h : s.noise = k :: ks) (hk : k < m + 1) :
    drawIndex m s = (k, s.setNoise ks) := by
  simp [drawIndex, h, hk]

end Sys2Proof.Machine
end

