-- ==== Sys2Proof/Laws/BlockCode.lean ====
section
/-! SUPPORT. Laws/BlockCode.lean: what the block code unit computes, and everything HENC and HDEC can do. -/

namespace Sys2Proof.Machine

/-- A bitstring of eight elements, element by element. -/
theorem eight_elements {d : Bitstring} (h : d.length = 8) :
    ∃ d0 d1 d2 d3 d4 d5 d6 d7, d = [d0, d1, d2, d3, d4, d5, d6, d7] := by
  match d, h with
  | [d0, d1, d2, d3, d4, d5, d6, d7], _ => exact ⟨_, _, _, _, _, _, _, _, rfl⟩

/-- A bitstring of twelve elements, element by element. -/
theorem twelve_elements {r : Bitstring} (h : r.length = 12) :
    ∃ r0 r1 r2 r3 r4 r5 r6 r7 r8 r9 r10 r11, r = [r0, r1, r2, r3, r4, r5, r6, r7, r8, r9, r10, r11] := by
  match r, h with
  | [r0, r1, r2, r3, r4, r5, r6, r7, r8, r9, r10, r11], _ => exact ⟨_, _, _, _, _, _, _, _, _, _, _, _, rfl⟩

@[simp] theorem encodeBlock_length (d : Bitstring) : (encodeBlock d).length = 12 := rfl

@[simp] theorem extractData_length (r : Bitstring) : (extractData r).length = 8 := rfl

/-- 40_blockcode.md R81: the parity equations, on a block written out. -/
theorem encodeBlock_elements (d0 d1 d2 d3 d4 d5 d6 d7 : Bit) :
    encodeBlock [d0, d1, d2, d3, d4, d5, d6, d7] =
      [d0 ^^ d1 ^^ d3 ^^ d4 ^^ d6, d0 ^^ d2 ^^ d3 ^^ d5 ^^ d6, d0, d1 ^^ d2 ^^ d3 ^^ d7, d1, d2, d3,
        d4 ^^ d5 ^^ d6 ^^ d7, d4, d5, d6, d7] := by
  simp [encodeBlock, xorAt, bitAt, parity0Set, parity1Set, parity2Set, parity3Set]

/-- 40_blockcode.md R85: a syndrome is a number of four bits. -/
theorem syndrome_lt (r : Bitstring) : syndrome r < 16 := by
  have bound : ∀ b : Bool, b.toNat ≤ 1 := by decide
  have h1 := bound (xorAt r syndrome1Set)
  have h2 := bound (xorAt r syndrome2Set)
  have h4 := bound (xorAt r syndrome4Set)
  have h8 := bound (xorAt r syndrome8Set)
  unfold syndrome
  omega

/-- 40_blockcode.md R85 (a): the syndrome is the exclusive OR of the positions of the ones, read off the block written
out. -/
theorem syndrome_elements (r0 r1 r2 r3 r4 r5 r6 r7 r8 r9 r10 r11 : Bit) :
    syndrome [r0, r1, r2, r3, r4, r5, r6, r7, r8, r9, r10, r11] =
      (r0 ^^ r2 ^^ r4 ^^ r6 ^^ r8 ^^ r10).toNat + 2 * (r1 ^^ r2 ^^ r5 ^^ r6 ^^ r9 ^^ r10).toNat
        + 4 * (r3 ^^ r4 ^^ r5 ^^ r6 ^^ r11).toNat + 8 * (r7 ^^ r8 ^^ r9 ^^ r10 ^^ r11).toNat := by
  simp [syndrome, xorAt, bitAt, syndrome1Set, syndrome2Set, syndrome4Set, syndrome8Set]

/-- The syndrome changes by the position, exclusive OR, when one element is flipped (40_blockcode.md R85). -/
theorem syndrome_flipAt {r : Bitstring} (h : r.length = 12) {p : Nat} (hp : p < 12) :
    syndrome (flipAt r p) = syndrome r ^^^ (p + 1) := by
  obtain ⟨r0, r1, r2, r3, r4, r5, r6, r7, r8, r9, r10, r11, rfl⟩ := twelve_elements h
  have toggle : ∀ a b c d : Bool, ∀ x : Fin 13,
      (a.toNat + 2 * b.toNat + 4 * c.toNat + 8 * d.toNat) ^^^ x.val =
        (a ^^ x.val.testBit 0).toNat + 2 * (b ^^ x.val.testBit 1).toNat + 4 * (c ^^ x.val.testBit 2).toNat
          + 8 * (d ^^ x.val.testBit 3).toNat := by decide
  refine Eq.trans ?_ ((congrArg (· ^^^ (p + 1)) (syndrome_elements ..)).trans
    (toggle _ _ _ _ ⟨p + 1, by omega⟩)).symm
  interval_cases p <;> simp [flipAt, syndrome_elements, Nat.testBit]

/-- 40_blockcode.md R85 (b): the syndrome of a codeword is 0. -/
theorem syndrome_encodeBlock {d : Bitstring} (h : d.length = 8) : syndrome (encodeBlock d) = 0 := by
  obtain ⟨d0, d1, d2, d3, d4, d5, d6, d7, rfl⟩ := eight_elements h
  rw [encodeBlock_elements, syndrome_elements]
  revert d0 d1 d2 d3 d4 d5 d6 d7
  decide

/-- 40_blockcode.md R90: the data elements of a codeword are its data. -/
theorem extractData_encodeBlock {d : Bitstring} (h : d.length = 8) : extractData (encodeBlock d) = d := by
  obtain ⟨d0, d1, d2, d3, d4, d5, d6, d7, rfl⟩ := eight_elements h
  rw [encodeBlock_elements]
  simp [extractData, dataIndices, bitAt]

/-- The three outcomes of HDEC on a block of twelve elements (40_blockcode.md R87 to R89), each a next state. -/
theorem decodeBlock_cases (r : Bitstring) (s : State) :
    (syndrome r = 0 ∧ decodeBlock r s = .next (s.deliver (decodedResponse (extractData r) 0))) ∨
    (1 ≤ syndrome r ∧ syndrome r ≤ 12 ∧
      decodeBlock r s =
        .next (s.deliver (decodedResponse (extractData (flipAt r (syndrome r - 1))) (syndrome r)))) ∨
    (13 ≤ syndrome r ∧
      decodeBlock r s = .next (s.deliver (faultResponse (.uncorrectable (BitVec.ofNat 4 (syndrome r)))))) := by
  unfold decodeBlock
  by_cases h0 : syndrome r = 0
  · exact .inl ⟨h0, by simp [h0]⟩
  · by_cases h12 : syndrome r ≤ 12
    · exact .inr (.inl ⟨by omega, h12, by simp [h0, h12]⟩)
    · exact .inr (.inr ⟨by omega, by simp [h0, h12]⟩)

/-- HENC on a command presented. -/
theorem execHenc_presented {s : State} {c : Command} {rest : List Command} (tag : TagField)
    (h : s.commands = c :: rest) (hc : c.wf = true) :
    execHenc tag s = .next ((s.setCommands rest).deliver
      (if c.len = 8 then encodedResponse (encodeBlock (operandOf c)) else faultResponse .invalidLength)) := by
  unfold execHenc
  rw [withOperand_presented _ h hc, operandOf_length hc]
  split <;> rfl

/-- HDEC on a command presented. -/
theorem execHdec_presented {s : State} {c : Command} {rest : List Command} (tag : TagField)
    (h : s.commands = c :: rest) (hc : c.wf = true) :
    execHdec tag s =
      if c.len = 12 then decodeBlock (operandOf c) (s.setCommands rest)
      else .next ((s.setCommands rest).deliver (faultResponse .invalidLength)) := by
  unfold execHdec
  rw [withOperand_presented _ h hc, operandOf_length hc]
  split <;> rfl

end Sys2Proof.Machine
end

