-- ==== Sys2Proof/Laws/LineCode.lean ====
section
/-! SUPPORT. Laws/LineCode.lean: what the fold of the line-code unit computes, and everything its instructions can
do. -/

namespace Sys2Proof.Machine

/-- The samples of an operand from a given level, bit by bit. -/
def samplesFrom (v : Variant) : Level → Bitstring → List Sample
  | _, [] => []
  | l, b :: d => (stepBit v b l).1 ++ samplesFrom v (stepBit v b l).2 d

/-- The level after an operand, from a given level. -/
def levelAfter (v : Variant) : Level → Bitstring → Level
  | l, [] => l
  | l, b :: d => levelAfter v (stepBit v b l).2 d

/-- The fold from any call-scoped record: the counter counts the bits, the samples are appended. -/
theorem foldl_handleBit (v : Variant) (d : Bitstring) (c : LineCall) :
    d.foldl (handleBit v) c =
      { lvl := levelAfter v c.lvl d, i := c.i + d.length, sout := c.sout ++ samplesFrom v c.lvl d } := by
  induction d generalizing c with
  | nil => simp [levelAfter, samplesFrom]
  | cons b d ih =>
    rw [List.foldl_cons, ih]
    simp [handleBit, levelAfter, samplesFrom, Nat.add_assoc, Nat.add_comm 1]

/-- 10_state.md R25: the bit counter starts at 0 and stops at `len`. -/
theorem lineCall_counter (v : Variant) (d : Bitstring) : (lineCall v d).i = d.length := by
  simp [lineCall, foldl_handleBit, lineStart]

theorem lineCall_level (v : Variant) (d : Bitstring) : (lineCall v d).lvl = levelAfter v .neg d := by
  simp [lineCall, foldl_handleBit, lineStart]

theorem lineSamples_eq (v : Variant) (d : Bitstring) : lineSamples v d = samplesFrom v .neg d := by
  simp [lineSamples, lineCall, foldl_handleBit, lineStart]

/-- 42_linecode.md R111: a beginning is encoded first, and the rest from the level it leaves. -/
theorem samplesFrom_append (v : Variant) (l : Level) (a b : Bitstring) :
    samplesFrom v l (a ++ b) = samplesFrom v l a ++ samplesFrom v (levelAfter v l a) b := by
  induction a generalizing l with
  | nil => rfl
  | cons x a ih => simp [samplesFrom, levelAfter, ih]

/-- How many samples one bit gives (42_linecode.md R112). -/
def samplesPerBit : Variant → Nat
  | .nrzL => 1
  | .manchester => 2
  | .nrzI => 1
  | .ami => 1
  | .diffManchester => 2

@[simp] theorem stepBit_length (v : Variant) (b : Bit) (l : Level) :
    (stepBit v b l).1.length = samplesPerBit v := by
  cases v <;> cases b <;> rfl

/-- 42_linecode.md R112: the length of a sample sequence. -/
theorem samplesFrom_length (v : Variant) (l : Level) (d : Bitstring) :
    (samplesFrom v l d).length = samplesPerBit v * d.length := by
  induction d generalizing l with
  | nil => rfl
  | cons b d ih => simp [samplesFrom, ih, Nat.mul_add, Nat.add_comm]

/-- A line-code operation on a command presented. -/
theorem encodeLine_presented {s : State} {c : Command} {rest : List Command} (v : Variant)
    (h : s.commands = c :: rest) (hc : c.wf = true) :
    encodeLine v s = .next ((s.setCommands rest).deliver
      (samplesResponse (samplesFrom v .neg (operandOf c)))) := by
  unfold encodeLine
  rw [withOperand_presented _ h hc, lineSamples_eq]
  rfl

/-- A reserved tag on a command presented. -/
theorem reservedTag_presented {s : State} {c : Command} {rest : List Command} (h : s.commands = c :: rest) :
    reservedTag s = .next ((s.setCommands rest).deliver (faultResponse .unsupportedEncoding)) := by
  unfold reservedTag
  rw [withCommand_presented _ h]
  rfl

end Sys2Proof.Machine
end

