-- ==== Sys2Proof/Laws/Noise.lean ====
section
/-! SUPPORT. Laws/Noise.lean: everything NFLIP can do. -/

namespace Sys2Proof.Machine

/-- NFLIP on an empty operand: the fault, and no draw. -/
theorem execNflip_empty {s : State} {c : Command} {rest : List Command} (tag : TagField)
    (h : s.commands = c :: rest) (hc : c.wf = true) (h0 : c.len = 0) :
    execNflip tag s = .next ((s.setCommands rest).deliver (faultResponse .emptyInput)) := by
  unfold execNflip
  rw [withOperand_presented _ h hc, operandOf_length hc, h0]
  rfl

/-- NFLIP on any other operand: one draw, and the operand with that element inverted. -/
theorem execNflip_drawn {s : State} {c : Command} {rest : List Command} {m : Nat} (tag : TagField)
    (h : s.commands = c :: rest) (hc : c.wf = true) (hm : c.len = m + 1) :
    execNflip tag s = .next ((drawIndex m (s.setCommands rest)).2.deliver
      (flippedResponse (flipAt (operandOf c) (drawIndex m (s.setCommands rest)).1)
        (drawIndex m (s.setCommands rest)).1)) := by
  unfold execNflip
  rw [withOperand_presented _ h hc, operandOf_length hc, hm]
  rfl

end Sys2Proof.Machine
end

