-- ==== Sys2Proof/Laws/PerInstr.lean ====
section
/-! SUPPORT. Laws/PerInstr.lean: a statement about every instruction as syntax, one lemma per constructor. The family
OpcodeRow: the word an instruction is encoded as is selected by its own row of the opcode table and by no other
(30_encoding.md R61). -/

namespace Sys2Proof.Laws

/-- 30_encoding.md R61: exactly one row selects the word of `i`, the row with the mnemonic of `i`. -/
def OpcodeRow.Statement (i : Instr) : Prop :=
  (opcodeRows.filter fun row => rowSelects row (encode i)).map (·.mnemonic) = [i.mnemonic]

theorem OpcodeRow.henc (tag : TagField) : OpcodeRow.Statement (.henc tag) := by
  unfold OpcodeRow.Statement; revert tag; decide

theorem OpcodeRow.hdec (tag : TagField) : OpcodeRow.Statement (.hdec tag) := by
  unfold OpcodeRow.Statement; revert tag; decide

theorem OpcodeRow.nflip (tag : TagField) : OpcodeRow.Statement (.nflip tag) := by
  unfold OpcodeRow.Statement; revert tag; decide

theorem OpcodeRow.lnrzl : OpcodeRow.Statement .lnrzl := by unfold OpcodeRow.Statement; decide

theorem OpcodeRow.lman : OpcodeRow.Statement .lman := by unfold OpcodeRow.Statement; decide

theorem OpcodeRow.lnrzi : OpcodeRow.Statement .lnrzi := by unfold OpcodeRow.Statement; decide

theorem OpcodeRow.lami : OpcodeRow.Statement .lami := by unfold OpcodeRow.Statement; decide

theorem OpcodeRow.ldman : OpcodeRow.Statement .ldman := by unfold OpcodeRow.Statement; decide

theorem OpcodeRow.lrsvd5 : OpcodeRow.Statement .lrsvd5 := by unfold OpcodeRow.Statement; decide

theorem OpcodeRow.lrsvd6 : OpcodeRow.Statement .lrsvd6 := by unfold OpcodeRow.Statement; decide

theorem OpcodeRow.lrsvd7 : OpcodeRow.Statement .lrsvd7 := by unfold OpcodeRow.Statement; decide

end Sys2Proof.Laws
end

