-- ==== Sys2Proof/Laws/Step.lean ====
section
/-! SUPPORT. Laws/Step.lean: what a step can do, said once. A command presented in good form is answered with one
response, a function of its operand and its draw (10_state.md R32), and no other field is touched. -/

namespace Sys2Proof.Machine

/-- The response of an instruction to the operand `d` when its draw, if it takes one, is `k`. -/
def answerOf : Instr → Bitstring → Nat → Response
  | .henc _, d, _ => if d.length = 8 then encodedResponse (encodeBlock d) else faultResponse .invalidLength
  | .hdec _, d, _ =>
    if d.length = 12 then
      if syndrome d = 0 then decodedResponse (extractData d) 0
      else if syndrome d ≤ 12 then decodedResponse (extractData (flipAt d (syndrome d - 1))) (syndrome d)
      else faultResponse (.uncorrectable (BitVec.ofNat 4 (syndrome d)))
    else faultResponse .invalidLength
  | .nflip _, d, k => if d.length = 0 then faultResponse .emptyInput else flippedResponse (flipAt d k) k
  | .lnrzl, d, _ => samplesResponse (samplesFrom .nrzL .neg d)
  | .lman, d, _ => samplesResponse (samplesFrom .manchester .neg d)
  | .lnrzi, d, _ => samplesResponse (samplesFrom .nrzI .neg d)
  | .lami, d, _ => samplesResponse (samplesFrom .ami .neg d)
  | .ldman, d, _ => samplesResponse (samplesFrom .diffManchester .neg d)
  | .lrsvd5, _, _ => faultResponse .unsupportedEncoding
  | .lrsvd6, _, _ => faultResponse .unsupportedEncoding
  | .lrsvd7, _, _ => faultResponse .unsupportedEncoding

/-- The draw an instruction takes for an operand of `n` elements, and the state after it: only NFLIP on an operand
that is not empty takes one. -/
def drawFor (i : Instr) (n : Nat) (s : State) : Nat × State :=
  match i, n with
  | .nflip _, m + 1 => drawIndex m s
  | _, _ => (0, s)

/-- A draw reaches into nothing but the draws. -/
theorem drawFor_spec (i : Instr) (n : Nat) (s : State) :
    (drawFor i n s).2 = s ∨ (drawFor i n s).2 = s.setNoise s.noise.tail ∨
      (drawFor i n s).2 = (s.setNoise s.noise.tail).countFreeDraw := by
  cases i with
  | nflip _ =>
    cases n with
    | zero => exact .inl rfl
    | succ m => exact .inr (drawIndex_spec m s).2
  | _ => exact .inl rfl

@[simp] theorem drawFor_commands (i : Instr) (n : Nat) (s : State) : (drawFor i n s).2.commands = s.commands := by
  rcases drawFor_spec i n s with e | e | e <;> simp [e]

@[simp] theorem drawFor_rst (i : Instr) (n : Nat) (s : State) : (drawFor i n s).2.rst = s.rst := by
  rcases drawFor_spec i n s with e | e | e <;> simp [e]

@[simp] theorem drawFor_responses (i : Instr) (n : Nat) (s : State) :
    (drawFor i n s).2.responses = s.responses := by
  rcases drawFor_spec i n s with e | e | e <;> simp [e]

/-- Everything an instruction does to a command presented in good form. -/
theorem exec_presented {s : State} {c : Command} {rest : List Command} (i : Instr) (h : s.commands = c :: rest)
    (hc : c.wf = true) :
    exec i s = .next ((drawFor i c.len (s.setCommands rest)).2.deliver
      (answerOf i (operandOf c) (drawFor i c.len (s.setCommands rest)).1)) := by
  cases i with
  | henc tag => simp only [exec, execHenc_presented tag h hc, drawFor, answerOf, operandOf_length hc]
  | hdec tag =>
    simp only [exec, execHdec_presented tag h hc, drawFor, answerOf, operandOf_length hc, decodeBlock]
    by_cases hl : c.len = 12 <;> by_cases h0 : syndrome (operandOf c) = 0 <;>
      by_cases h12 : syndrome (operandOf c) ≤ 12 <;> simp [hl, h0, h12]
  | nflip tag =>
    cases hl : c.len with
    | zero => simp [exec, execNflip_empty tag h hc hl, drawFor, answerOf, operandOf_length hc, hl]
    | succ m =>
      simp only [exec, execNflip_drawn tag h hc hl, drawFor, answerOf, operandOf_length hc, hl]
      simp
  | lnrzl => exact encodeLine_presented .nrzL h hc
  | lman => exact encodeLine_presented .manchester h hc
  | lnrzi => exact encodeLine_presented .nrzI h hc
  | lami => exact encodeLine_presented .ami h hc
  | ldman => exact encodeLine_presented .diffManchester h hc
  | lrsvd5 => exact reservedTag_presented h
  | lrsvd6 => exact reservedTag_presented h
  | lrsvd7 => exact reservedTag_presented h

/-- With no command presented, no instruction has an operand. -/
theorem exec_nothing {s : State} (i : Instr) (h : s.commands = []) : exec i s = .fault .noCommand := by
  cases i <;>
    simp [exec, execHenc, execHdec, execNflip, execLnrzl, execLman, execLnrzi, execLami, execLdman, execLrsvd5,
      execLrsvd6, execLrsvd7, encodeLine, reservedTag, withOperand, withCommand, h]

/-- A record that is no command is refused, except by the reserved words, which do not look at it. -/
theorem exec_malformed {s : State} {c : Command} {rest : List Command} (i : Instr) (h : s.commands = c :: rest)
    (hc : c.wf = false) :
    exec i s = .refused .malformedCommand ∨
      exec i s = .next ((s.setCommands rest).deliver (faultResponse .unsupportedEncoding)) := by
  cases i <;>
    simp [exec, execHenc, execHdec, execNflip, execLnrzl, execLman, execLnrzi, execLami, execLdman, execLrsvd5,
      execLrsvd6, execLrsvd7, encodeLine, reservedTag, withOperand, withCommand, h, hc]

theorem step_reset {s : State} (h : s.rst = true) : step s = .next (takeReset s) := by simp [step, h]

theorem step_idle {s : State} (h : s.rst = false) (hs : s.commands = []) : step s = .next s := by
  simp [step, h, presentedWord, hs, idle]

theorem step_exec {s : State} {c : Command} {rest : List Command} (h : s.rst = false)
    (hs : s.commands = c :: rest) : step s = exec (decodeWord c.cmd) s := by
  simp [step, h, presentedWord, hs]

/-- A step on a command presented in good form: one response, the command gone, the draw it took. -/
theorem step_answers {s : State} {c : Command} {rest : List Command} (h : s.rst = false)
    (hs : s.commands = c :: rest) (hc : c.wf = true) :
    step s = .next ((drawFor (decodeWord c.cmd) c.len (s.setCommands rest)).2.deliver
      (answerOf (decodeWord c.cmd) (operandOf c) (drawFor (decodeWord c.cmd) c.len (s.setCommands rest)).1)) := by
  rw [step_exec h hs, exec_presented _ hs hc]

/-- The three things a step is: a reset, nothing, or the instruction of the word presented. -/
theorem step_cases (s : State) :
    (s.rst = true ∧ step s = .next (takeReset s)) ∨
    (s.rst = false ∧ s.commands = [] ∧ step s = .next s) ∨
    ∃ c rest, s.rst = false ∧ s.commands = c :: rest ∧ step s = exec (decodeWord c.cmd) s := by
  cases hr : s.rst with
  | true => exact .inl ⟨rfl, step_reset hr⟩
  | false =>
    cases hs : s.commands with
    | nil => exact .inr (.inl ⟨rfl, rfl, step_idle hr hs⟩)
    | cons c rest => exact .inr (.inr ⟨c, rest, rfl, rfl, step_exec hr hs⟩)

/-- A run whose first step answers goes on from there. -/
theorem run_succ {M : Host.Core} {s t : M.State} (n : Nat) (h : M.step s = .next t) :
    M.run (n + 1) s = M.run n t := by
  simp only [Host.Core.run]
  rw [h]

end Sys2Proof.Machine
end

