-- ==== Sys2Proof/Laws/Reference.lean ====
section
/-! SUPPORT. Laws/Reference.lean: the reference descriptions of Safety.lean against the operations of the machine. -/

namespace Sys2Proof.Safety

open Sys2Proof.Machine

/-- A flip of the reference is the flip of the machine. -/
theorem isFlip_iff (s : Bitstring) (k : Nat) (x : Bitstring) : IsFlip s k x ↔ x = flipAt s k := by
  constructor
  · rintro ⟨_, hk, hne⟩
    apply List.ext_getElem?
    intro i
    by_cases h : i = k
    · rw [h, hk, flipAt_getElem?_self]
    · rw [hne i h, flipAt_getElem?_ne s h]
  · rintro rfl
    exact ⟨flipAt_length s k, flipAt_getElem?_self s k, fun i h => flipAt_getElem?_ne s h⟩

theorem codeword_eq {d : Bitstring} (h : d.length = 8) : codeword d = encodeBlock d := by
  obtain ⟨d0, d1, d2, d3, d4, d5, d6, d7, rfl⟩ := eight_elements h
  rw [encodeBlock_elements]; rfl

theorem dataOf_eq (r : Bitstring) : dataOf r = extractData r := rfl

/-- The exclusive OR over an index set is 1 exactly when an odd number of its elements are. -/
theorem parityAt_eq (r : Bitstring) (indices : List Nat) : parityAt r indices = (xorAt r indices).toNat := by
  have step : ∀ (l : List Nat) (b : Bool),
      (l.foldl (fun acc i => acc ^^ bitAt r i) b).toNat = (b.toNat + l.countP fun i => r.getD i false) % 2 := by
    intro l
    induction l with
    | nil => intro b; cases b <;> rfl
    | cons i l ih =>
      intro b
      rw [List.foldl_cons, ih, List.countP_cons]
      unfold bitAt
      cases b <;> cases r.getD i false <;> simp <;> omega
  have := step indices false
  simpa [xorAt, parityAt] using this.symm

theorem syndromeOf_eq (r : Bitstring) : syndromeOf r = syndrome r := by
  simp [syndromeOf, syndrome, parityAt_eq, syndrome1Set, syndrome2Set, syndrome4Set, syndrome8Set]

/-- The level a reference calls up is +1. -/
def levelOf (up : Bool) : Level := if up then .pos else .neg

theorem nrzlReference_eq (l : Level) (d : Bitstring) : nrzlReference d = samplesFrom .nrzL l d := by
  induction d with
  | nil => rfl
  | cons b d ih => cases b <;> simp [nrzlReference, samplesFrom, stepBit, ih]

theorem manchesterReference_eq (l : Level) (d : Bitstring) :
    manchesterReference d = samplesFrom .manchester l d := by
  induction d with
  | nil => rfl
  | cons b d ih => cases b <;> simp [manchesterReference, samplesFrom, stepBit, ih]

theorem nrziReference_eq (up : Bool) (d : Bitstring) :
    nrziReference up d = samplesFrom .nrzI (levelOf up) d := by
  induction d generalizing up with
  | nil => rfl
  | cons b d ih => cases b <;> cases up <;> simp [nrziReference, samplesFrom, ih] <;> rfl

theorem amiReference_eq (up : Bool) (d : Bitstring) : amiReference up d = samplesFrom .ami (levelOf up) d := by
  induction d generalizing up with
  | nil => rfl
  | cons b d ih => cases b <;> cases up <;> simp [amiReference, samplesFrom, ih] <;> rfl

theorem diffManchesterReference_eq (up : Bool) (d : Bitstring) :
    diffManchesterReference up d = samplesFrom .diffManchester (levelOf up) d := by
  induction d generalizing up with
  | nil => rfl
  | cons b d ih => cases b <;> cases up <;> simp [diffManchesterReference, samplesFrom, ih] <;> rfl

/-- The running level after an operand: it has been inverted once for every 1. -/
theorem levelAfter_running {v : Variant} (hv : v = .nrzI ∨ v = .ami ∨ v = .diffManchester) (up : Bool)
    (d : Bitstring) : levelAfter v (levelOf up) d = levelOf (up ^^ oddOnes d) := by
  have flips : ∀ (b u : Bool), (stepBit v b (levelOf u)).2 = levelOf (u ^^ b) := by
    rcases hv with rfl | rfl | rfl <;> decide
  induction d generalizing up with
  | nil => simp [levelAfter, oddOnes]
  | cons b d ih =>
    rw [levelAfter, flips, ih]
    congr 1
    have odd_succ : ∀ n : Nat, ((n + 1) % 2 == 1) = !(n % 2 == 1) := by
      intro n; rcases Nat.mod_two_eq_zero_or_one n with h | h <;> simp [Nat.add_mod, h]
    cases b <;> cases up <;> simp [oddOnes, odd_succ]

/-- A state is its answered one in the operations' own terms. -/
theorem afterAnswer_eq (s : State) (rest : List Command) (r : Response) :
    afterAnswer s rest r = (s.setCommands rest).deliver r := rfl

end Sys2Proof.Safety
end

