-- ==== Sys2Proof/Machine/Text.lean ====
section
/-! DEFINITION. Text.lean: commands and responses as the spec writes them (30_encoding.md R72), and the source's names
for the operations (R73). Notation only: no operation reads it (92_eei_decisions.md D15). -/

namespace Sys2Proof.Machine

/-- 30_encoding.md R73: the source's name of an operation, a synonym of its mnemonic. -/
def sourceName : Instr → String
  | .henc _ => "encode"
  | .hdec _ => "decode"
  | .nflip _ => "injectSingleBitError"
  | .lnrzl => "lineEncode(NRZ-L)"
  | .lman => "lineEncode(Manchester)"
  | .lnrzi => "lineEncode(NRZ-I)"
  | .lami => "lineEncode(AMI)"
  | .ldman => "lineEncode(DifferentialManchester)"
  | .lrsvd5 => "unknown encoding tag 5"
  | .lrsvd6 => "unknown encoding tag 6"
  | .lrsvd7 => "unknown encoding tag 7"

/-- 30_encoding.md R72: the digits of a bitstring, element 0 first, as `b"..."`. -/
def bitsText (d : Bitstring) : String :=
  "b\"" ++ d.foldl (fun acc b => acc ++ (if b then "1" else "0")) "" ++ "\""

/-- A sample as a number. -/
def sampleText : Sample → String
  | .pos => "1"
  | .zero => "0"
  | .neg => "-1"

/-- The elements of a list with a comma between them. -/
def commaText : List String → String
  | [] => ""
  | [x] => x
  | x :: y :: rest => x ++ "," ++ commaText (y :: rest)

/-- 30_encoding.md R72: a command, with the draw beside it where one is written. -/
def commandText (i : Instr) (d : Bitstring) (draw : Option Nat) : String :=
  i.mnemonic ++ " " ++ bitsText d ++
    match draw with
    | none => ""
    | some k => ", k=" ++ toString k

/-- The error position a response reports: a number, or `none` when `err_valid` is 0. -/
def errPosText (r : Response) : String :=
  match r.errValid, r.errPos with
  | some true, some p => ", err_pos=" ++ toString p.toNat
  | some false, _ => ", err_pos=none"
  | _, _ => ""

/-- The flipped index a response reports. -/
def flipIdxText (r : Response) : String :=
  match r.flipIdx with
  | some k => ", flip_idx=" ++ toString k
  | none => ""

/-- 30_encoding.md R72: a response. -/
def responseText (r : Response) : String :=
  match r.status, r.dout, r.sout with
  | .ok, some d, _ => "-> OK dout=" ++ bitsText d ++ errPosText r ++ flipIdxText r
  | .ok, none, some x => "-> OK sout=[" ++ commaText (x.map sampleText) ++ "]"
  | .ok, none, none => "-> OK"
  | .invalidLength, _, _ => "-> InvalidLength"
  | .emptyInput, _, _ => "-> EmptyInput"
  | .unsupportedEncoding, _, _ => "-> UnsupportedEncoding"
  | .uncorrectable, _, _ =>
    match r.info with
    | some v => "-> Uncorrectable info=" ++ toString v.toNat
    | none => "-> Uncorrectable"

end Sys2Proof.Machine
end

