-- ==== Sys2Proof/Tests/Slice0.lean ====
section
/-! SUPPORT. Tests/Slice0.lean: words written out from the spec's encoding, the vectors of 95_test_vectors.md on single
steps, the check of WellFormed refusing, the canonical failures, and for every statement with hypotheses a state and
operands that meet them. -/

namespace Sys2Proof.Tests

open Sys2Proof Sys2Proof.Machine Sys2Proof.Safety

/-- A bitstring from its digits, element 0 first (30_encoding.md R72). -/
def bits (digits : List Nat) : Bitstring := digits.map (· == 1)

/-- The command record of an instruction and an operand. -/
def cmdFor (i : Instr) (d : Bitstring) : Command := ⟨encode i, d.length, d⟩

/-- The machine after reset with one command presented. -/
def presenting (i : Instr) (d : Bitstring) : State := { State.reset with commands := [cmdFor i d] }

/-- The same with one draw supplied by a test source. -/
def presentingDraw (i : Instr) (d : Bitstring) (k : Nat) : State := { presenting i d with noise := [k] }

/-- The response a step delivered last. -/
def answered (r : Result) : Option Response :=
  match r with
  | .next s => responseAtPort s
  | .fault _ => none
  | .refused _ => none

/-- The response of one step on a command. -/
def answerTo (i : Instr) (d : Bitstring) : Option Response := answered (step (presenting i d))

/-- The response of one step on a word of the encoding and an operand. -/
def answerToWord (w : CmdWord) (d : Bitstring) : Option Response :=
  answered (step { State.reset with commands := [⟨w, d.length, d⟩] })

/-- The data block of V1. -/
def data1 : Bitstring := bits [1, 0, 1, 1, 0, 0, 1, 0]

/-- Its codeword. -/
def code1 : Bitstring := bits [1, 0, 1, 0, 0, 1, 1, 1, 0, 0, 1, 0]

/-- Samples written as the spec writes them. -/
def samples (l : List Int) : List Sample := l.map fun v => if v = 1 then .pos else if v = -1 then .neg else .zero

/-! ### WellFormed -/

theorem test_wellFormed_refuses_missing_elements : Command.wf ⟨0b00000#5, 2, [true]⟩ = false := by decide

theorem test_malformed_command_is_refused :
    step { State.reset with commands := [⟨0b00000#5, 8, bits [1, 0, 1]⟩] } matches .refused .malformedCommand := by
  decide

/-! ### Words written out from 30_encoding.md R61 -/

theorem test_decode_henc : decodeWord 0b00000#5 = .henc 0b000#3 := by decide
theorem test_decode_henc_tag : decodeWord 0b00111#5 = .henc 0b111#3 := by decide
theorem test_decode_hdec : decodeWord 0b01000#5 = .hdec 0b000#3 := by decide
theorem test_decode_nflip : decodeWord 0b10001#5 = .nflip 0b001#3 := by decide
theorem test_decode_lnrzl : decodeWord 0b11000#5 = .lnrzl := by decide
theorem test_decode_lman : decodeWord 0b11001#5 = .lman := by decide
theorem test_decode_lnrzi : decodeWord 0b11010#5 = .lnrzi := by decide
theorem test_decode_lami : decodeWord 0b11011#5 = .lami := by decide
theorem test_decode_ldman : decodeWord 0b11100#5 = .ldman := by decide
theorem test_decode_lrsvd5 : decodeWord 0b11101#5 = .lrsvd5 := by decide
theorem test_decode_lrsvd6 : decodeWord 0b11110#5 = .lrsvd6 := by decide
theorem test_decode_lrsvd7 : decodeWord 0b11111#5 = .lrsvd7 := by decide
theorem test_decode_rejects_by_name : decode 32 = .error .widerThanCommandWord := by decide

/-! ### One step each, the expected answers from 95_test_vectors.md -/

/-- V1, step 1 (with the literal of 90_conflicts.md C1). -/
theorem test_henc_v1 : (answerToWord 0b00000#5 (bits [1, 0, 1, 1, 0, 0, 1, 0])).bind (·.dout) =
    some (bits [1, 0, 1, 0, 0, 1, 1, 1, 0, 0, 1, 0]) := by decide

/-- V15. -/
theorem test_henc_short : (answerTo (.henc 0) (bits [1, 0, 1, 1, 0, 0, 1])).map (·.status) = some .invalidLength := by
  decide

/-- V1, step 4. -/
theorem test_hdec_v1 : (answerToWord 0b01000#5 (bits [1, 0, 1, 0, 1, 1, 1, 1, 0, 0, 1, 0])).map
    (fun r => (r.dout, r.errValid, r.errPos)) =
    some (some (bits [1, 0, 1, 1, 0, 0, 1, 0]), some true, some 5#4) := by decide

/-- V14: syndrome 13. -/
theorem test_hdec_uncorrectable : (answerTo (.hdec 0) (bits [1, 0, 0, 0, 0, 0, 0, 0, 0, 0, 0, 1])).map
    (fun r => (r.status, r.info, r.dout)) = some (.uncorrectable, some 13#4, none) := by decide

/-- V20. -/
theorem test_nflip_v20 : (answered (step (presentingDraw (.nflip 0) (bits [1, 0, 1, 0, 0, 1, 1, 1, 0, 0, 1, 0]) 4))).map
    (fun r => (r.dout, r.flipIdx)) = some (some (bits [1, 0, 1, 0, 1, 1, 1, 1, 0, 0, 1, 0]), some 4) := by decide

/-- V28. -/
theorem test_nflip_empty : (answerTo (.nflip 0) []).map (·.status) = some .emptyInput := by decide

/-- V3. -/
theorem test_lnrzl_v3 : (answerToWord 0b11000#5 (bits [1, 0, 1, 1])).bind (·.sout) = some (samples [1, -1, 1, 1]) := by
  decide

/-- V31. -/
theorem test_lman_v31 : (answerToWord 0b11001#5 (bits [1, 0, 1, 1])).bind (·.sout) =
    some (samples [1, -1, -1, 1, 1, -1, 1, -1]) := by decide

/-- V31. -/
theorem test_lnrzi_v31 : (answerToWord 0b11010#5 (bits [1, 0, 1, 1, 0, 0, 1, 0])).bind (·.sout) =
    some (samples [1, 1, -1, 1, 1, 1, -1, -1]) := by decide

/-- V31. -/
theorem test_lami_v31 : (answerToWord 0b11011#5 (bits [1, 0, 1, 0, 1, 1, 1, 1, 0, 0, 1, 0])).bind (·.sout) =
    some (samples [1, 0, -1, 0, 1, -1, 1, -1, 0, 0, 1, 0]) := by decide

/-- V31. -/
theorem test_ldman_v31 : (answerToWord 0b11100#5 (bits [0, 1, 0, 0])).bind (·.sout) =
    some (samples [1, -1, -1, 1, -1, 1, -1, 1]) := by decide

/-- V31, the empty operand. -/
theorem test_ldman_empty : (answerToWord 0b11100#5 []).map (fun r => (r.slen, r.sout)) = some (some 0, some []) := by
  decide

/-- V33. -/
theorem test_lrsvd5_v33 : (answerToWord 0b11101#5 []).map (·.status) = some .unsupportedEncoding := by decide

/-- V33. -/
theorem test_lrsvd6_v33 : (answerToWord 0b11110#5 (bits [1, 0, 1, 1])).map (fun r => (r.status, r.sout)) =
    some (.unsupportedEncoding, none) := by decide

/-- V33. -/
theorem test_lrsvd7_v33 : (answerToWord 0b11111#5 (bits [1, 0, 1, 1])).map (·.status) = some .unsupportedEncoding := by
  decide

/-- V34. -/
theorem test_sample_codes_v34 : (samples [1, 0, -1, 1]).map sampleCode = [0b01#2, 0b00#2, 0b11#2, 0b01#2] := by decide

/-- NFLIP runs as the first instruction after reset, its draw free (assumption log 2 and 4). -/
theorem test_withFetchWord_runs_nflip :
    (answered (step (State.reset.withFetchWord 8 0b10000))).map (·.status) = some .ok := by decide

/-- The notation of 30_encoding.md R72, on V1 and V13. -/
theorem test_text_v1 :
    commandText (.henc 0) data1 none = "HENC b\"10110010\"" ∧
    (answerTo (.hdec 0) (flipAt code1 4)).map responseText = some "-> OK dout=b\"10110010\", err_pos=5" := by
  decide

/-! ### States and operands that meet the hypotheses of the statements -/

/-- A command built from an operand is presented in good form. -/
theorem presents_presenting (i : Instr) (d : Bitstring) : Presents (presenting i d) (cmdFor i d) [] :=
  ⟨rfl, by simp [Command.wf, cmdFor]⟩

theorem witness_TagIgnoredOutsideLineCodeUnit :
    (presenting (.henc 0) data1).rst = false ∧ Presents (presenting (.henc 0) data1) (cmdFor (.henc 0) data1) [] ∧
    unitNumber (cmdFor (.henc 0) data1) ≠ 3 ∧
    unitNumber (cmdFor (.henc 7) data1) = unitNumber (cmdFor (.henc 0) data1) ∧
    (cmdFor (.henc 7) data1).len = (cmdFor (.henc 0) data1).len ∧
    (cmdFor (.henc 7) data1).din = (cmdFor (.henc 0) data1).din :=
  ⟨rfl, presents_presenting _ _, by decide, by decide, rfl, rfl⟩

/-- The least width DecodeAndEncodeAgree speaks of, with the word whose bits all are 1. -/
theorem witness_DecodeAndEncodeAgree : 5 ≤ 5 ∧ decodeTableWord 5 (encode .lrsvd7).toNat = some .lrsvd7 := by decide

theorem witness_StepPerformsDecodedCommand :
    (presenting .lami data1).rst = false ∧ (presenting .lami data1).commands = cmdFor .lami data1 :: [] ∧
    State.reset.rst = false ∧ State.reset.commands = [] ∧ 5 ≤ 8 := ⟨rfl, rfl, rfl, rfl, by decide⟩

theorem witness_ResetAbandonsCommandInProgress :
    ({ presenting .lami data1 with rst := true } : State).rst = true ∧
    ({ State.reset with rst := true } : State).rst = true := ⟨rfl, rfl⟩

theorem witness_DeliveredResponsesAreNeverRead : ∃ t, step (presenting (.hdec 0) code1) = .next t := ⟨_, rfl⟩

theorem witness_StepKeepsInv :
    Inv (presenting (.henc 0) data1) ∧ ∃ t, step (presenting (.henc 0) data1) = .next t :=
  ⟨⟨by decide, by simp [presenting]⟩, ⟨_, rfl⟩⟩

/-- Two commands, the second of which faults. -/
def twoCommands : State := { State.reset with commands := [cmdFor (.henc 0) data1, cmdFor (.nflip 0) []] }

theorem witness_EveryCommandIsAnsweredOnce :
    twoCommands.rst = false ∧ (∀ c ∈ twoCommands.commands, c.wf = true) := ⟨rfl, by decide⟩

theorem witness_ResponseDependsOnCommandAndDrawAlone :
    (presenting (.nflip 0) data1).rst = false ∧ (presentingDraw (.nflip 0) data1 3).rst = false ∧
    Presents (presenting (.nflip 0) data1) (cmdFor (.nflip 0) data1) [] ∧
    Presents (presentingDraw (.nflip 0) data1 3) (cmdFor (.nflip 0) data1) [] :=
  ⟨rfl, rfl, presents_presenting _ _, presents_presenting _ _⟩

theorem witness_PortBeyondLenIsNotRead :
    Presents { State.reset with commands := [⟨0b11000#5, 1, [true, true]⟩] } ⟨0b11000#5, 1, [true, true]⟩ [] ∧
    (⟨0b11000#5, 1, [true, false]⟩ : Command).wf = true ∧ [true, false].take 1 = [true, true].take 1 :=
  ⟨⟨rfl, rfl⟩, rfl, rfl⟩

theorem witness_CommandsCommute_one_draw :
    twoCommands.rst = false ∧ twoCommands.commands = cmdFor (.henc 0) data1 :: cmdFor (.nflip 0) [] :: [] ∧
    (cmdFor (.henc 0) data1).wf = true ∧ (cmdFor (.nflip 0) []).wf = true ∧
    unitNumber (cmdFor (.henc 0) data1) ≠ 2 := ⟨rfl, rfl, rfl, rfl, by decide⟩

/-- The other cases of the first clause: two noise commands, the first, the second or both with an empty operand. -/
theorem witness_CommandsCommute_empty_operands :
    ∀ p ∈ [([], [true]), ([true], []), ([], [])],
      ({ State.reset with commands := [cmdFor (.nflip 0) p.1, cmdFor (.nflip 0) p.2] } : State).rst = false ∧
      (cmdFor (.nflip 0) p.1).wf = true ∧ (cmdFor (.nflip 0) p.2).wf = true ∧
      unitNumber (cmdFor (.nflip 0) p.1) = 2 ∧ unitNumber (cmdFor (.nflip 0) p.2) = 2 ∧
      ((cmdFor (.nflip 0) p.1).len = 0 ∨ (cmdFor (.nflip 0) p.2).len = 0) := by decide

/-- Two noise commands, each with the last index of its operand supplied. -/
def twoDraws : State :=
  { State.reset with commands := [cmdFor (.nflip 0) data1, cmdFor (.nflip 0) [true]], noise := [7, 0] }

theorem witness_CommandsCommute_two_draws :
    twoDraws.rst = false ∧ twoDraws.commands = cmdFor (.nflip 0) data1 :: cmdFor (.nflip 0) [true] :: [] ∧
    unitNumber (cmdFor (.nflip 0) data1) = 2 ∧ unitNumber (cmdFor (.nflip 0) [true]) = 2 ∧
    7 < (cmdFor (.nflip 0) data1).len ∧ 0 < (cmdFor (.nflip 0) [true]).len ∧ twoDraws.noise = 7 :: 0 :: [] :=
  ⟨rfl, rfl, by decide, by decide, by decide, by decide, rfl⟩

/-- The hypotheses of FaultsAreExactlyThoseListed, FaultResponseHasNoDataField and OperationsWriteTheirFields. -/
theorem witness_FaultsAreExactlyThoseListed :
    (presenting (.hdec 0) code1).rst = false ∧ Presents (presenting (.hdec 0) code1) (cmdFor (.hdec 0) code1) [] :=
  ⟨rfl, presents_presenting _ _⟩

/-- The clauses of FaultsAreExactlyThoseListed at the edges of their conditions. -/
theorem witness_FaultsAreExactlyThoseListed_edges :
    (answerTo (.henc 0) (List.replicate 8 true)).map (·.status) = some .ok ∧
    (answerTo (.henc 0) (List.replicate 9 true)).map (·.status) = some .invalidLength ∧
    (answerTo (.hdec 0) (List.replicate 11 true)).map (·.status) = some .invalidLength ∧
    (answerTo (.hdec 0) (List.replicate 12 true)).map (·.errPos) = some (some 12#4) ∧
    (answerTo (.hdec 0) (bits [0, 0, 1, 0, 0, 0, 0, 0, 0, 0, 0, 1])).map (·.info) = some (some 15#4) ∧
    (answerTo (.hdec 0) []).map (·.status) = some .invalidLength ∧
    (answerTo (.nflip 0) []).map (·.status) = some .emptyInput ∧
    (answered (step (presentingDraw (.nflip 0) [true] 0))).map (·.status) = some .ok ∧
    (answerToWord 0b11100#5 []).map (·.status) = some .ok ∧
    (answerToWord 0b11101#5 []).map (·.status) = some .unsupportedEncoding := by decide

theorem witness_FaultResponseHasNoDataField :
    (presenting (.henc 0) []).rst = false ∧ (presenting (.henc 0) []).commands = cmdFor (.henc 0) [] :: [] ∧
    (cmdFor (.henc 0) []).wf = true ∧ (answerTo (.henc 0) []).map (·.status) = some .invalidLength :=
  ⟨rfl, rfl, rfl, by decide⟩

theorem witness_FaultLeavesNoTrace : ∃ t r u added,
    (presenting (.henc 0) []).rst = false ∧ (presenting (.henc 0) []).commands = cmdFor (.henc 0) [] :: [] ∧
    step (presenting (.henc 0) []) = .next t ∧ t.responses = (presenting (.henc 0) []).responses ++ [r] ∧
    r.status ≠ .ok ∧ step { presenting (.henc 0) [] with commands := [] } = .next u ∧
    u.responses = (presenting (.henc 0) []).responses ++ added :=
  ⟨_, statusOnly .invalidLength, _, [], rfl, rfl, rfl, rfl, by decide, rfl, rfl⟩

theorem witness_OperationsWriteTheirFields :
    (presenting .ldman data1).rst = false ∧ Presents (presenting .ldman data1) (cmdFor .ldman data1) [] ∧
    (answerTo .ldman data1).map (·.status) = some .ok := ⟨rfl, presents_presenting _ _, by decide⟩

theorem witness_EmptyOperandByUnit :
    Presents (presenting (.nflip 0) []) (cmdFor (.nflip 0) []) [] ∧ (cmdFor (.nflip 0) []).len = 0 :=
  ⟨presents_presenting _ _, rfl⟩

theorem witness_HencEncodesBlock :
    Presents (presenting (.henc 0) data1) (cmdFor (.henc 0) data1) [] ∧
    (cmdFor (.henc 0) data1).din.take (cmdFor (.henc 0) data1).len =
      [true, false, true, true, false, false, true, false] ∧
    Presents (presenting (.henc 0) (List.replicate 9 true)) (cmdFor (.henc 0) (List.replicate 9 true)) [] ∧
    (cmdFor (.henc 0) (List.replicate 9 true)).len ≠ 8 :=
  ⟨presents_presenting _ _, rfl, presents_presenting _ _, by decide⟩

/-- The clauses of HdecDecodesBlock at the edges: length 11, syndrome 0, 1, 12, 13 and 15. -/
theorem witness_HdecDecodesBlock :
    (∀ d, Presents (presenting (.hdec 0) d) (cmdFor (.hdec 0) d) [] ∧
      (cmdFor (.hdec 0) d).din.take (cmdFor (.hdec 0) d).len = d) ∧
    (cmdFor (.hdec 0) (List.replicate 11 false)).len ≠ 12 ∧ syndromeOf (List.replicate 12 false) = 0 ∧
    syndromeOf (bits [1, 0, 0, 0, 0, 0, 0, 0, 0, 0, 0, 0]) = 1 ∧
    syndromeOf (bits [0, 0, 0, 0, 0, 0, 0, 0, 0, 0, 0, 1]) = 12 ∧
    IsFlip (bits [0, 0, 0, 0, 0, 0, 0, 0, 0, 0, 0, 1]) (12 - 1) (List.replicate 12 false) ∧
    syndromeOf (bits [1, 0, 0, 0, 0, 0, 0, 0, 0, 0, 0, 1]) = 13 ∧
    syndromeOf (bits [0, 0, 1, 0, 0, 0, 0, 0, 0, 0, 0, 1]) = 15 :=
  ⟨fun d => ⟨presents_presenting _ _, by simp [cmdFor]⟩, by decide, by decide, by decide, by decide,
    (isFlip_iff _ _ _).2 (by decide), by decide, by decide⟩

theorem witness_InvalidLengthExactlyOnWrongBlockSize :
    Presents (presenting (.hdec 0) data1) (cmdFor (.hdec 0) data1) [] ∧ (cmdFor (.hdec 0) data1).len ≠ 12 ∧
    (cmdFor (.hdec 0) data1).len = 8 := ⟨presents_presenting _ _, by decide, rfl⟩

/-- The first position, as the witness below has the last. -/
theorem witness_SingleInversionIsCorrected_first :
    1 ≤ 1 ∧ Presents (presenting (.hdec 0) (flipAt code1 0)) (cmdFor (.hdec 0) (flipAt code1 0)) [] ∧
    IsFlip code1 (1 - 1)
      ((cmdFor (.hdec 0) (flipAt code1 0)).din.take (cmdFor (.hdec 0) (flipAt code1 0)).len) :=
  ⟨by decide, presents_presenting _ _, (isFlip_iff _ _ _).2 (by decide)⟩

theorem witness_HdecInvertsHenc :
    Presents (presenting (.henc 0) data1) (cmdFor (.henc 0) data1) [] ∧ (cmdFor (.henc 0) data1).len = 8 ∧
    Presents (presenting (.hdec 0) code1) (cmdFor (.hdec 0) code1) [] ∧
    (answerTo (.henc 0) data1).bind (·.dout) =
      some ((cmdFor (.hdec 0) code1).din.take (cmdFor (.hdec 0) code1).len) :=
  ⟨presents_presenting _ _, rfl, presents_presenting _ _, by decide⟩

theorem witness_SingleInversionIsCorrected :
    Presents (presenting (.henc 0) data1) (cmdFor (.henc 0) data1) [] ∧ (cmdFor (.henc 0) data1).len = 8 ∧
    Presents (presenting (.hdec 0) (flipAt code1 11)) (cmdFor (.hdec 0) (flipAt code1 11)) [] ∧ 1 ≤ 12 ∧ 12 ≤ 12 ∧
    (answerTo (.henc 0) data1).bind (·.dout) = some code1 ∧
    IsFlip code1 (12 - 1)
      ((cmdFor (.hdec 0) (flipAt code1 11)).din.take (cmdFor (.hdec 0) (flipAt code1 11)).len) :=
  ⟨presents_presenting _ _, rfl, presents_presenting _ _, by decide, by decide, by decide,
    (isFlip_iff _ _ _).2 (by decide)⟩

/-- Positions 1 and 12 (their exclusive OR is 13) and positions 1 and 2 (3), as V13 has them. -/
theorem witness_TwoInversionsAreNeverRecovered :
    data1.length = 8 ∧ IsFlip (codeword data1) (1 - 1) (flipAt code1 0) ∧
    IsFlip (flipAt code1 0) (12 - 1) (flipAt (flipAt code1 0) 11) ∧ 13 ≤ 1 ^^^ 12 ∧
    IsFlip (flipAt code1 0) (2 - 1) (flipAt (flipAt code1 0) 1) ∧ 1 ^^^ 2 ≤ 12 ∧
    Presents (presenting (.hdec 0) (flipAt (flipAt code1 0) 11)) (cmdFor (.hdec 0) (flipAt (flipAt code1 0) 11)) [] ∧
    (cmdFor (.hdec 0) (flipAt (flipAt code1 0) 11)).din.take
      (cmdFor (.hdec 0) (flipAt (flipAt code1 0) 11)).len = flipAt (flipAt code1 0) 11 :=
  ⟨rfl, (isFlip_iff _ _ _).2 (by decide), (isFlip_iff _ _ _).2 rfl, by decide, (isFlip_iff _ _ _).2 rfl, by decide,
    presents_presenting _ _, rfl⟩

theorem witness_HencIsLinearWithDistanceThree :
    (cmdFor (.henc 0) data1).wf = true ∧ (cmdFor (.henc 0) (List.replicate 8 true)).wf = true ∧
    (cmdFor (.henc 0) (data1.map (!·))).wf = true ∧ (cmdFor (.henc 0) data1).len = 8 ∧
    (cmdFor (.henc 0) (List.replicate 8 true)).len = 8 ∧ (cmdFor (.henc 0) (data1.map (!·))).len = 8 ∧
    data1.take 8 ≠ (List.replicate 8 true).take 8 ∧
    (data1.map (!·)).take 8 = List.zipWith (fun a b => a ^^ b) (data1.take 8) ((List.replicate 8 true).take 8) := by
  decide

/-- Two blocks, one a codeword and one at distance 1 from it. -/
theorem witness_HdecOkIffWithinOneInversionOfCodeword :
    Presents (presenting (.hdec 0) code1) (cmdFor (.hdec 0) code1) [] ∧ (cmdFor (.hdec 0) code1).len = 12 ∧
    data1.length = 8 ∧ distance (codeword data1) (code1.take 12) = 0 ∧
    distance (codeword data1) ((flipAt code1 11).take 12) = 1 :=
  ⟨presents_presenting _ _, rfl, rfl, by decide, by decide⟩

theorem witness_ReportedSyndromeIsXorOfPositions :
    Presents (presenting (.hdec 0) (flipAt code1 4)) (cmdFor (.hdec 0) (flipAt code1 4)) [] ∧
    (cmdFor (.hdec 0) (flipAt code1 4)).len = 12 ∧
    5#4 = ((List.range 12).filter fun j => ((flipAt code1 4).take 12).getD j false).foldl
      (fun acc j => acc ^^^ BitVec.ofNat 4 (j + 1)) 0#4 := ⟨presents_presenting _ _, rfl, by decide⟩

/-- Both clauses: the empty operand and the shortest that is not. -/
theorem witness_NflipInvertsOneDrawnElement :
    Presents (presenting (.nflip 0) []) (cmdFor (.nflip 0) []) [] ∧ (cmdFor (.nflip 0) []).len = 0 ∧
    Presents (presenting (.nflip 0) [true]) (cmdFor (.nflip 0) [true]) [] ∧ 1 ≤ (cmdFor (.nflip 0) [true]).len :=
  ⟨presents_presenting _ _, rfl, presents_presenting _ _, by decide⟩

theorem witness_EveryIndexCanBeDrawn :
    Presents (presenting (.nflip 0) data1) (cmdFor (.nflip 0) data1) [] ∧ 7 < (cmdFor (.nflip 0) data1).len :=
  ⟨presents_presenting _ _, by decide⟩

theorem witness_NflipTwiceRestoresOrDiffersInTwo :
    Presents (presentingDraw (.nflip 0) data1 7) (cmdFor (.nflip 0) data1) [] ∧ 1 ≤ (cmdFor (.nflip 0) data1).len ∧
    Presents (presenting (.nflip 0) (flipAt data1 7)) (cmdFor (.nflip 0) (flipAt data1 7)) [] ∧
    (answered (step (presentingDraw (.nflip 0) data1 7))).bind (·.dout) =
      some ((cmdFor (.nflip 0) (flipAt data1 7)).din.take (cmdFor (.nflip 0) (flipAt data1 7)).len) :=
  ⟨presents_presenting _ _, by decide, presents_presenting _ _, by decide⟩

theorem witness_NoiseOnCodewordsIsCorrected :
    Presents (presenting (.nflip 0) (code1 ++ code1)) (cmdFor (.nflip 0) (code1 ++ code1)) [] ∧
    (∀ d ∈ [data1, data1], d.length = 8) ∧ [data1, data1] ≠ [] ∧
    (cmdFor (.nflip 0) (code1 ++ code1)).din.take (cmdFor (.nflip 0) (code1 ++ code1)).len =
      ([data1, data1].map codeword).flatten :=
  ⟨presents_presenting _ _, by decide, by decide, by decide⟩

/-- The hypotheses of LnrzlSamples, LmanSamples, LnrziSamples, LamiSamples, LdmanSamples, RunningLevelClosedForms and
LdmanTransitions, and their inner ones. -/
theorem witness_line_samples :
    (∀ i, Presents (presenting i data1) (cmdFor i data1) []) ∧ 0 < (cmdFor .lman data1).len ∧
    ((cmdFor .lnrzi data1).din.take (cmdFor .lnrzi data1).len)[7]? = some false ∧
    ((cmdFor .ldman data1).din.take (cmdFor .ldman data1).len)[0]? = some true :=
  ⟨fun _ => presents_presenting _ _, by decide, by decide, by decide⟩

/-- Two ones with a 0 between them, as the last clause of LamiSamples has them. -/
theorem witness_LamiSamples :
    Presents (presenting .lami (bits [1, 0, 1])) (cmdFor .lami (bits [1, 0, 1])) [] ∧
    (cmdFor .lami (bits [1, 0, 1])).din.take (cmdFor .lami (bits [1, 0, 1])).len = bits [1, 0, 1] ∧
    (bits [1, 0, 1])[0]? = some true ∧ (bits [1, 0, 1])[2]? = some true ∧
    ∀ k, 0 < k → k < 2 → (bits [1, 0, 1])[k]? = some false :=
  ⟨presents_presenting _ _, by decide, by decide, by decide, fun k h1 h2 => by
    have : k = 1 := by omega
    subst this; decide⟩

theorem witness_LineCodesAnswerEveryOperand :
    Presents (presenting .lami []) (cmdFor .lami []) [] ∧ Presents (presenting .lman []) (cmdFor .lman []) [] ∧
    Presents (presenting .lrsvd5 []) (cmdFor .lrsvd5 []) [] :=
  ⟨presents_presenting _ _, presents_presenting _ _, presents_presenting _ _⟩

theorem witness_ZeroLevelOnlyFromLami : ∃ t r x,
    Presents (presenting .lami [false]) (cmdFor .lami [false]) [] ∧ exec .lami (presenting .lami [false]) = .next t ∧
    t.responses = (presenting .lami [false]).responses ++ [r] ∧ r.sout = some x :=
  ⟨_, lineAnswer [.zero], [.zero], presents_presenting _ _, rfl, rfl, rfl⟩

/-- V32: `10` has an odd number of ones, `11` an even one. -/
theorem witness_SplittingAStream :
    Presents (presenting .lnrzi (bits [1, 1])) (cmdFor .lnrzi (bits [1, 1])) [] ∧
    Presents (presenting .lnrzi (bits [0, 1])) (cmdFor .lnrzi (bits [0, 1])) [] ∧
    Presents (presenting .lnrzi (bits [1, 1] ++ bits [0, 1])) (cmdFor .lnrzi (bits [1, 1] ++ bits [0, 1])) [] ∧
    oddOnes (bits [1, 1]) = false ∧ oddOnes (bits [1, 0]) = true :=
  ⟨presents_presenting _ _, presents_presenting _ _, presents_presenting _ _, by decide, by decide⟩

theorem witness_SamplesDependOnEarlierBitsOnly :
    Presents (presenting .lami (bits [1, 0])) (cmdFor .lami (bits [1, 0])) [] ∧
    Presents (presenting .lami data1) (cmdFor .lami data1) [] ∧
    (cmdFor .lami (bits [1, 0])).din.take (cmdFor .lami (bits [1, 0])).len <+:
      (cmdFor .lami data1).din.take (cmdFor .lami data1).len :=
  ⟨presents_presenting _ _, presents_presenting _ _, by decide⟩

/-- The operand of a reserved word is not looked at: not even an ill-formed record changes the answer. -/
theorem witness_ReservedTagsRaiseUnsupportedEncoding :
    ({ State.reset with commands := [⟨0b11111#5, 3, []⟩] } : State).commands = ⟨0b11111#5, 3, []⟩ :: [] ∧
    ({ State.reset with commands := [⟨0b11111#5, 3, []⟩] } : State).rst = false ∧
    (answered (step { State.reset with commands := [⟨0b11111#5, 3, []⟩] })).map (·.status) =
      some .unsupportedEncoding := ⟨rfl, rfl, by decide⟩

end Sys2Proof.Tests
end

section
/-! PROOFS. What an instruction does to the command presented whenever it reaches a next state, said once; the two
kinds of answer it gives; and the statements of 10_state.md R20 and R31 settled from these. -/

namespace Sys2Proof.Machine

/-- 42_linecode.md R118: the instructions of the reserved tags, which do not look at the operand. -/
def IsReserved (i : Instr) : Prop := i = .lrsvd5 ∨ i = .lrsvd6 ∨ i = .lrsvd7

/-- The response `i` gives to `c` presented in `s` before `rest`. -/
def answerIn (i : Instr) (c : Command) (rest : List Command) (s : State) : Response :=
  answerOf i (operandOf c) (drawFor i c.len (s.setCommands rest)).1

/-- The state after `i` has answered `c`, presented in `s` before `rest`. -/
def afterExec (i : Instr) (c : Command) (rest : List Command) (s : State) : State :=
  (drawFor i c.len (s.setCommands rest)).2.deliver (answerIn i c rest s)

@[simp] theorem afterExec_responses (i : Instr) (c : Command) (rest : List Command) (s : State) :
    (afterExec i c rest s).responses = s.responses ++ [answerIn i c rest s] := by
  simp [afterExec]

/-! ### When an instruction answers -/

/-- An operation on the operand refuses a record without the elements it announces. -/
theorem withOperand_malformed {s : State} {c : Command} {rest : List Command} {k : Bitstring → State → Result}
    (h : s.commands = c :: rest) (hc : c.wf = false) : withOperand k s = .refused .malformedCommand := by
  simp [withOperand, withCommand_presented _ h, hc]

/-- Every instruction that looks at its operand refuses a record that is no command. -/
theorem exec_malformed_of_not_isReserved {s : State} {c : Command} {rest : List Command} {i : Instr}
    (hi : ¬ IsReserved i) (h : s.commands = c :: rest) (hc : c.wf = false) :
    exec i s = .refused .malformedCommand := by
  cases i with
  | lrsvd5 => exact absurd (.inl rfl) hi
  | lrsvd6 => exact absurd (.inr (.inl rfl)) hi
  | lrsvd7 => exact absurd (.inr (.inr rfl)) hi
  | _ =>
    simp [exec, execHenc, execHdec, execNflip, execLnrzl, execLman, execLnrzi, execLami, execLdman, encodeLine,
      withOperand_malformed h hc]

/-- A reserved instruction answers any record, and every other instruction a command in good form. -/
theorem exec_eq_afterExec {s : State} {c : Command} {rest : List Command} {i : Instr} (h : s.commands = c :: rest)
    (hc : c.wf = true ∨ IsReserved i) : exec i s = .next (afterExec i c rest s) := by
  rcases hc with hc | rfl | rfl | rfl
  · exact exec_presented i h hc
  all_goals exact reservedTag_presented h

/-- An instruction that reached a next state had something to answer. -/
theorem presented_of_exec_next {s t : State} {i : Instr} (h : exec i s = .next t) :
    ∃ c rest, s.commands = c :: rest ∧ (c.wf = true ∨ IsReserved i) := by
  cases hs : s.commands with
  | nil => simp [exec_nothing i hs] at h
  | cons c rest =>
    refine ⟨c, rest, rfl, or_iff_not_imp_right.2 fun hi => ?_⟩
    by_contra hc
    simp [exec_malformed_of_not_isReserved hi hs (Bool.eq_false_of_not_eq_true hc)] at h

/-! ### The responses delivered earlier -/

/-- The noise source does not look at the responses delivered. -/
theorem drawIndex_with_responses (m : Nat) (s : State) (earlier : List Response) :
    drawIndex m { s with responses := earlier } =
      ((drawIndex m s).1, { (drawIndex m s).2 with responses := earlier }) := by
  rcases drawIndex_cases m s with ⟨k, ks, hn, hk, e⟩ | ⟨k, ks, hn, hk, e⟩ | ⟨hn, e⟩
  · rw [e]; exact drawIndex_supplied hn hk
  · rw [e]; simp [drawIndex, hn, hk, freeDraw, State.setNoise, State.countFreeDraw]
  · rw [e]; simp [drawIndex, hn, freeDraw, State.countFreeDraw]

theorem drawFor_with_responses (i : Instr) (n : Nat) (s : State) (earlier : List Response) :
    drawFor i n { s with responses := earlier } =
      ((drawFor i n s).1, { (drawFor i n s).2 with responses := earlier }) := by
  cases i with
  | nflip _ =>
    cases n with
    | zero => rfl
    | succ m => exact drawIndex_with_responses m s earlier
  | _ => rfl

/-- The same answer, whatever has been delivered before, and the same state around it. -/
theorem afterExec_with_responses (i : Instr) (c : Command) (rest : List Command) (s : State)
    (earlier : List Response) :
    afterExec i c rest { s with responses := earlier } =
      { afterExec i c rest s with responses := earlier ++ [answerIn i c rest s] } := by
  have draw := drawFor_with_responses i c.len (s.setCommands rest) earlier
  have hset : State.setCommands rest { s with responses := earlier } =
    { s.setCommands rest with responses := earlier } := rfl
  simp only [afterExec, answerIn, hset, draw, State.deliver]

/-! ### The two kinds of answer -/

/-- An operation succeeds and records nothing in `info`, or its answer is that of a fault. -/
theorem answerOf_cases (i : Instr) (d : Bitstring) (k : Nat) :
    ((answerOf i d k).status = .ok ∧ (answerOf i d k).info = none) ∨ ∃ f, answerOf i d k = faultResponse f := by
  cases i with
  | henc _ =>
    by_cases h8 : d.length = 8
    · exact .inl (by simp [answerOf, h8, encodedResponse, bareResponse])
    · exact .inr ⟨_, if_neg h8⟩
  | hdec _ =>
    by_cases h12 : d.length = 12
    · by_cases h0 : syndrome d = 0
      · exact .inl (by simp [answerOf, h12, h0, decodedResponse, bareResponse])
      · by_cases hs : syndrome d ≤ 12
        · exact .inl (by simp [answerOf, h12, h0, hs, decodedResponse, bareResponse])
        · exact .inr ⟨.uncorrectable (BitVec.ofNat 4 (syndrome d)), by simp [answerOf, h12, h0, hs]⟩
    · exact .inr ⟨_, if_neg h12⟩
  | nflip _ =>
    by_cases h0 : d.length = 0
    · exact .inr ⟨_, if_pos h0⟩
    · exact .inl (by simp [answerOf, h0, flippedResponse, bareResponse])
  | lrsvd5 | lrsvd6 | lrsvd7 => exact .inr ⟨_, rfl⟩
  | _ => exact .inl ⟨rfl, rfl⟩

/-- A fault's `info` has a value for `Uncorrectable` alone (60_exceptions.md R131). -/
theorem faultInfo_eq_none_iff (f : OpFault) : faultInfo f = none ↔ faultStatus f ≠ .uncorrectable := by
  cases f <;> simp [faultInfo, faultStatus]

end Sys2Proof.Machine

open Sys2Proof Sys2Proof.Machine

/-- Settles O10: a reset and an idle step add no response, and what an instruction answers does not depend on the
responses delivered before. -/
theorem deliveredResponsesAreNeverRead : Obligations.DeliveredResponsesAreNeverRead := by
  intro s t earlier hstep
  rcases step_cases s with ⟨hr, e⟩ | ⟨hr, hs, e⟩ | ⟨c, rest, hr, hs, e⟩ <;> rw [e] at hstep
  · obtain rfl : takeReset s = t := by simpa using hstep
    exact ⟨[], (List.append_nil _).symm, by rw [List.append_nil]; exact step_reset hr⟩
  · obtain rfl : s = t := by simpa using hstep
    exact ⟨[], (List.append_nil _).symm, by rw [List.append_nil]; exact step_idle hr hs⟩
  · obtain ⟨c', rest', hs', hc⟩ := presented_of_exec_next hstep
    obtain ⟨rfl, rfl⟩ : c = c' ∧ rest = rest' := by simpa using hs.symm.trans hs'
    obtain rfl : afterExec (decodeWord c.cmd) c rest s = t := by simpa [exec_eq_afterExec hs hc] using hstep
    refine ⟨[answerIn (decodeWord c.cmd) c rest s], afterExec_responses .., ?_⟩
    rw [step_exec (s := { s with responses := earlier }) hr hs,
      exec_eq_afterExec (s := { s with responses := earlier }) hs hc, afterExec_with_responses]

/-- Settles O18: the answer is a success without `info`, or the record of a fault, which writes `status` and `info`
alone. -/
theorem faultResponseHasNoDataField : Obligations.FaultResponseHasNoDataField := by
  intro s c rest hr hs hc
  refine ⟨_, _, (step_exec hr hs).trans (exec_eq_afterExec hs (.inl hc)), afterExec_responses .., ?_⟩
  unfold answerIn
  rcases answerOf_cases (decodeWord c.cmd) (operandOf c)
    (drawFor (decodeWord c.cmd) c.len (s.setCommands rest)).1 with ⟨hok, hinfo⟩ | ⟨f, hf⟩
  · exact ⟨fun hne => absurd hok hne, by simp [hok, hinfo]⟩
  · rw [hf]
    exact ⟨fun _ => ⟨rfl, rfl, rfl, rfl, rfl, rfl, rfl⟩, faultInfo_eq_none_iff f⟩

end

section
/-! PROOFS. An answer looks at the operand port through the operand alone, and the statement of 20_memory.md R50 settled
from this. -/

namespace Sys2Proof.Machine

/-- What stood at the command port is not looked at beyond the command taken from it. -/
theorem afterExec_with_commands (i : Instr) (c : Command) (rest cs : List Command) (s : State) :
    afterExec i c rest { s with commands := cs } = afterExec i c rest s := rfl

/-- Two commands with the same length and the same operand are answered alike by an instruction. -/
theorem afterExec_eq_of_operandOf_eq {c c' : Command} (i : Instr) (rest : List Command) (s : State)
    (hlen : c'.len = c.len) (hop : operandOf c' = operandOf c) : afterExec i c' rest s = afterExec i c rest s := by
  simp only [afterExec, answerIn, hlen, hop]

/-- A reset drops the command presented without looking at it. -/
theorem takeReset_with_commands {s : State} {c : Command} {rest : List Command} (c' : Command)
    (hs : s.commands = c :: rest) : takeReset { s with commands := c' :: rest } = takeReset s := by
  simp [takeReset, State.setCommands, State.setRst, hs]

end Sys2Proof.Machine

open Sys2Proof Sys2Proof.Machine

/-- Settles O15: a reset drops the command unread, and otherwise the two commands have the same word, length and
operand, which are all an answer depends on. -/
theorem portBeyondLenIsNotRead : Obligations.PortBeyondLenIsNotRead := by
  intro s c c' rest ⟨hs, hc⟩ hcmd hlen hc' hdin
  have hop : operandOf c' = operandOf c := by rw [operandOf, operandOf, hlen, hdin]
  rcases s.rst.eq_false_or_eq_true with hr | hr
  · rw [step_reset hr, step_reset (s := { s with commands := c' :: rest }) hr, takeReset_with_commands c' hs]
  · rw [step_exec hr hs, exec_eq_afterExec hs (.inl hc), step_exec (s := { s with commands := c' :: rest }) hr rfl,
      exec_eq_afterExec (s := { s with commands := c' :: rest }) rfl (.inl hc'), hcmd, afterExec_with_commands,
      afterExec_eq_of_operandOf_eq _ rest s hlen hop]

end

section
/-! PROOFS. The three units that ignore the tag (30_encoding.md R64): what their words decode to, and that an answer
does not look at the tag; the statements of R64 and R66 settled. -/

namespace Sys2Proof.Machine

open Sys2Proof.Safety

/-! ### The unit of a command word and its instruction -/

/-- 30_encoding.md R60: the field `unit` is the number the statements use. -/
theorem unitOf_toNat (c : Command) : (unitOf c.cmd).toNat = unitNumber c := by
  have hcmd : c.cmd.toNat < 32 := c.cmd.isLt
  simp only [unitOf, unitNumber, BitVec.extractLsb'_toNat, Nat.shiftRight_eq_div_pow]
  omega

theorem decodeWord_of_unitNumber_zero {c : Command} (h : unitNumber c = 0) :
    decodeWord c.cmd = .henc (tagOf c.cmd) := by
  simp only [decodeWord, unitOf_toNat, h]

theorem decodeWord_of_unitNumber_one {c : Command} (h : unitNumber c = 1) :
    decodeWord c.cmd = .hdec (tagOf c.cmd) := by
  simp only [decodeWord, unitOf_toNat, h]

theorem decodeWord_of_unitNumber_two {c : Command} (h : unitNumber c = 2) :
    decodeWord c.cmd = .nflip (tagOf c.cmd) := by
  simp only [decodeWord, unitOf_toNat, h]

/-- The units other than the line-code unit. -/
theorem unitNumber_cases {c : Command} (h : unitNumber c ≠ 3) :
    unitNumber c = 0 ∨ unitNumber c = 1 ∨ unitNumber c = 2 := by
  have hlt : unitNumber c < 4 := unitOf_toNat c ▸ (unitOf c.cmd).isLt
  omega

/-- The reserved tags are those of the line-code unit. -/
theorem not_isReserved_decodeWord {c : Command} (h : unitNumber c ≠ 3) : ¬ IsReserved (decodeWord c.cmd) := by
  rcases unitNumber_cases h with h | h | h
  · simp [decodeWord_of_unitNumber_zero h, IsReserved]
  · simp [decodeWord_of_unitNumber_one h, IsReserved]
  · simp [decodeWord_of_unitNumber_two h, IsReserved]

/-! ### The tag is not looked at -/

theorem drawFor_nflip_tag (tag tag' : TagField) (n : Nat) (s : State) :
    drawFor (.nflip tag) n s = drawFor (.nflip tag') n s := by
  cases n <;> rfl

/-- Two commands of one unit that ignores the tag are answered alike when the rest of the record is the same. -/
theorem afterExec_decodeWord_eq_of_unitNumber_eq {c c' : Command} (d : Command) (rest : List Command) (s : State)
    (h : unitNumber c ≠ 3) (hunit : unitNumber c' = unitNumber c) :
    afterExec (decodeWord c'.cmd) d rest s = afterExec (decodeWord c.cmd) d rest s := by
  rcases unitNumber_cases h with h | h | h
  · rw [decodeWord_of_unitNumber_zero h, decodeWord_of_unitNumber_zero (hunit.trans h)]; rfl
  · rw [decodeWord_of_unitNumber_one h, decodeWord_of_unitNumber_one (hunit.trans h)]; rfl
  · rw [decodeWord_of_unitNumber_two h, decodeWord_of_unitNumber_two (hunit.trans h)]
    simp only [afterExec, answerIn, answerOf, drawFor_nflip_tag (tagOf c'.cmd) (tagOf c.cmd)]

/-- 60_exceptions.md R134: the fault of an unknown tag is raised by the reserved tags alone. -/
theorem answerOf_status_eq_unsupportedEncoding_iff (i : Instr) (d : Bitstring) (k : Nat) :
    (answerOf i d k).status = .unsupportedEncoding ↔ IsReserved i := by
  cases i with
  | henc _ | hdec _ | nflip _ =>
    simp only [answerOf]
    split_ifs <;>
      simp [encodedResponse, decodedResponse, flippedResponse, faultResponse, bareResponse, faultStatus, IsReserved]
  | lrsvd5 | lrsvd6 | lrsvd7 => simp [answerOf, faultResponse, bareResponse, faultStatus, IsReserved]
  | _ => simp [answerOf, samplesResponse, bareResponse, IsReserved]

end Sys2Proof.Machine

open Sys2Proof Sys2Proof.Machine

/-- Settles O4: both words decode to an instruction of the same unit, whose answer does not look at the tag, and the
fault of an unknown tag belongs to the reserved tags of the line-code unit. -/
theorem tagIgnoredOutsideLineCodeUnit : Obligations.TagIgnoredOutsideLineCodeUnit := by
  intro s c c' rest hr ⟨hs, hc⟩ hline hunit hlen hdin
  have hc' : c'.wf = true := by rwa [Command.wf, hlen, hdin]
  have hop : operandOf c' = operandOf c := by rw [operandOf, operandOf, hlen, hdin]
  have hstep : step s = .next (afterExec (decodeWord c.cmd) c rest s) :=
    (step_exec hr hs).trans (exec_eq_afterExec hs (.inl hc))
  refine ⟨?_, _, _, hstep, afterExec_responses .., ?_⟩
  · rw [hstep, step_exec (s := { s with commands := c' :: rest }) hr rfl,
      exec_eq_afterExec (s := { s with commands := c' :: rest }) rfl (.inl hc'), afterExec_with_commands,
      afterExec_eq_of_operandOf_eq _ rest s hlen hop, afterExec_decodeWord_eq_of_unitNumber_eq c rest s hline hunit]
  · exact fun hstatus =>
      not_isReserved_decodeWord hline ((answerOf_status_eq_unsupportedEncoding_iff ..).1 hstatus)

/-- Settles O5: the codes are those of the table, and none of the three samples has the code `10`. -/
theorem sampleCodesAsTabled : Obligations.SampleCodesAsTabled := by
  refine ⟨rfl, rfl, rfl, fun x => ?_⟩
  cases x <;> decide

end

section
/-! PROOFS. What HENC and HDEC answer, outcome by outcome, in the terms of the statements; the statements of R80 to R82
and of R84, R86 to R90 settled. -/

namespace Sys2Proof.Machine

open Sys2Proof.Safety

/-! ### The answers of the block code unit -/

/-- An instruction that takes no draw changes nothing but that the command has been answered. -/
theorem exec_eq_afterAnswer_of_ne_nflip {s : State} {c : Command} {rest : List Command} {i : Instr}
    (hi : ∀ tag, i ≠ .nflip tag) (h : Presents s c rest) :
    exec i s = .next (afterAnswer s rest (answerOf i (operandOf c) 0)) := by
  obtain ⟨hs, hc⟩ := h
  cases i with
  | nflip tag => exact absurd rfl (hi tag)
  | _ => exact exec_presented _ hs hc

/-- 40_blockcode.md R82: the answer to a block of eight elements is its protected block. -/
theorem answerOf_henc_of_length_eq (tag : TagField) (k : Nat) {d : Bitstring} (h : d.length = 8) :
    answerOf (.henc tag) d k = { statusOnly .ok with dlen := some 12, dout := some (encodeBlock d) } :=
  if_pos h

/-- 40_blockcode.md R82: the length check of HENC. -/
theorem answerOf_henc_of_length_ne (tag : TagField) (k : Nat) {d : Bitstring} (h : d.length ≠ 8) :
    answerOf (.henc tag) d k = statusOnly .invalidLength :=
  if_neg h

/-- 40_blockcode.md R86: the length check of HDEC. -/
theorem answerOf_hdec_of_length_ne (tag : TagField) (k : Nat) {r : Bitstring} (h : r.length ≠ 12) :
    answerOf (.hdec tag) r k = statusOnly .invalidLength :=
  if_neg h

/-- 40_blockcode.md R87: with syndrome 0 the data is answered as received. -/
theorem answerOf_hdec_of_syndrome_eq_zero (tag : TagField) (k : Nat) {r : Bitstring} (h : r.length = 12)
    (h0 : syndrome r = 0) :
    answerOf (.hdec tag) r k =
      { statusOnly .ok with
        dlen := some 8, dout := some (extractData r), errValid := some false, errPos := some 0#4 } :=
  (if_pos h).trans (if_pos h0)

/-- 40_blockcode.md R88: a syndrome from 1 to 12 names the element that is inverted. -/
theorem answerOf_hdec_of_syndrome_le (tag : TagField) (k : Nat) {r : Bitstring} (h : r.length = 12)
    (h1 : 1 ≤ syndrome r) (h12 : syndrome r ≤ 12) :
    answerOf (.hdec tag) r k =
      { statusOnly .ok with
        dlen := some 8, dout := some (extractData (flipAt r (syndrome r - 1))), errValid := some true,
        errPos := some (BitVec.ofNat 4 (syndrome r)) } := by
  have h0 : syndrome r ≠ 0 := by omega
  simp [answerOf, h, h0, h12, decodedResponse, bareResponse, statusOnly]

/-- 40_blockcode.md R89: a syndrome from 13 on names no element. -/
theorem answerOf_hdec_of_le_syndrome (tag : TagField) (k : Nat) {r : Bitstring} (h : r.length = 12)
    (h13 : 13 ≤ syndrome r) :
    answerOf (.hdec tag) r k =
      { statusOnly .uncorrectable with info := some (BitVec.ofNat 4 (syndrome r)) } := by
  have h0 : syndrome r ≠ 0 := by omega
  have h12 : ¬ syndrome r ≤ 12 := by omega
  exact (if_pos h).trans ((if_neg h0).trans (if_neg h12))

end Sys2Proof.Machine

open Sys2Proof Sys2Proof.Machine Sys2Proof.Safety

/-- Settles O22: HENC answers by the length of its operand, and on eight elements with the parity equations of R81. -/
theorem hencEncodesBlock : Obligations.HencEncodesBlock := by
  intro tag s c rest hp
  have hlen : (operandOf c).length = c.len := operandOf_length hp.2
  rw [exec_eq_afterAnswer_of_ne_nflip (by simp) hp]
  refine ⟨fun d0 d1 d2 d3 d4 d5 d6 d7 hd => ?_, fun h8 => ?_⟩
  · rw [operandOf, hd, answerOf_henc_of_length_eq tag 0 rfl, encodeBlock_elements]
  · rw [answerOf_henc_of_length_ne tag 0 (hlen ▸ h8)]

/-- Settles O23: the four clauses are the four answers of HDEC, once the syndrome, the flip and the data of the
reference are those of the machine. -/
theorem hdecDecodesBlock : Obligations.HdecDecodesBlock := by
  intro tag s c rest r hp hr
  have hop : operandOf c = r := hr
  have hlen : r.length = c.len := hop ▸ operandOf_length hp.2
  rw [exec_eq_afterAnswer_of_ne_nflip (by simp) hp, hop, syndromeOf_eq]
  refine ⟨fun hne => ?_, fun h12 h0 => ?_, fun x h12 h1 hle hx => ?_, fun h12 h13 => ?_⟩
  · rw [answerOf_hdec_of_length_ne tag 0 (hlen ▸ hne)]
  · rw [answerOf_hdec_of_syndrome_eq_zero tag 0 (hlen.trans h12) h0, dataOf_eq]
  · rw [answerOf_hdec_of_syndrome_le tag 0 (hlen.trans h12) h1 hle, (isFlip_iff ..).1 hx, dataOf_eq]
  · rw [answerOf_hdec_of_le_syndrome tag 0 (hlen.trans h12) h13]

end

section
/-! PROOFS. The five line codes: their answer through the fold of the machine, said once for all variants, the samples
of LMAN and LAMI bit by bit, and the statements of R110 and R113 to R117 settled from these. -/

namespace Sys2Proof.Machine

open Sys2Proof.Safety

/-! ### The answer of a line-code operation -/

/-- 42_linecode.md R113 to R117: the instruction of each line-code variant. -/
def lineInstr : Variant → Instr
  | .nrzL => .lnrzl
  | .manchester => .lman
  | .nrzI => .lnrzi
  | .ami => .lami
  | .diffManchester => .ldman

/-- 42_linecode.md R110: a line-code operation answers every operand, and changes nothing else. -/
theorem exec_lineInstr {s : State} {c : Command} {rest : List Command} (v : Variant) (h : Presents s c rest) :
    exec (lineInstr v) s = .next (afterAnswer s rest (lineAnswer (samplesFrom v .neg (c.din.take c.len)))) := by
  cases v <;> exact encodeLine_presented _ h.1 h.2

/-- 42_linecode.md R112: the number of samples of a command's operand. -/
theorem samplesFrom_take_length {c : Command} (v : Variant) (l : Level) (h : c.wf = true) :
    (samplesFrom v l (c.din.take c.len)).length = samplesPerBit v * c.len := by
  rw [samplesFrom_length, ← operandOf, operandOf_length h]

end Sys2Proof.Machine

namespace Sys2Proof.Safety

/-! ### Samples of opposite sign -/

theorem sampleOf_ne_zero (up : Bool) : sampleOf up ≠ .zero := by cases up <;> decide

@[simp] theorem opposite_sampleOf (up : Bool) : opposite (sampleOf up) = sampleOf (!up) := by cases up <;> rfl

/-- 42_linecode.md R114: the two samples of each bit. -/
theorem manchesterReference_getElem? {d : Bitstring} {i : Nat} {b : Bit} (h : d[i]? = some b) :
    (manchesterReference d)[2 * i]? = some (sampleOf b) ∧
      (manchesterReference d)[2 * i + 1]? = some (sampleOf (!b)) := by
  induction d generalizing i with
  | nil => simp at h
  | cons x d ih =>
    have hx : manchesterReference (x :: d) = sampleOf x :: sampleOf (!x) :: manchesterReference d := by
      cases x <;> rfl
    cases i with
    | zero =>
      obtain rfl : x = b := by simpa using h
      simp [hx]
    | succ i => simpa [hx, Nat.mul_add] using ih (by simpa using h)

/-! ### The parity of the ones -/

theorem oddOnes_cons (b : Bit) (d : Bitstring) : oddOnes (b :: d) = (b ^^ oddOnes d) := by
  cases b
  · simp [oddOnes]
  · rcases Nat.mod_two_eq_zero_or_one (d.count true) with h | h <;> simp [oddOnes, Nat.add_mod, h]

theorem oddOnes_append (a b : Bitstring) : oddOnes (a ++ b) = (oddOnes a ^^ oddOnes b) := by
  induction a with
  | nil => simp [oddOnes]
  | cons x a ih => simp [oddOnes_cons, ih]

/-- One more bit changes the parity when it is a 1. -/
theorem oddOnes_take_succ {d : Bitstring} {i : Nat} {b : Bit} (h : d[i]? = some b) :
    oddOnes (d.take (i + 1)) = (oddOnes (d.take i) ^^ b) := by
  rw [List.take_add_one, h, oddOnes_append]
  cases b <;> rfl

/-- Bits that are 0 leave the parity as it is. -/
theorem oddOnes_take_eq_of_zeros {d : Bitstring} {i j : Nat} (hij : i ≤ j)
    (h : ∀ k, i ≤ k → k < j → d[k]? = some false) : oddOnes (d.take j) = oddOnes (d.take i) := by
  induction j, hij using Nat.le_induction with
  | base => rfl
  | succ j hij ih =>
    rw [oddOnes_take_succ (h j hij j.lt_succ_self), Bool.xor_false]
    exact ih fun k hik hkj => h k hik (hkj.trans j.lt_succ_self)

/-- 42_linecode.md R116: the sample of each bit, by the parity of the ones up to it. -/
theorem amiReference_getElem? (up : Bool) (d : Bitstring) (i : Nat) :
    (amiReference up d)[i]? =
      d[i]?.map fun b => if b then sampleOf (up ^^ oddOnes (d.take (i + 1))) else .zero := by
  induction d generalizing up i with
  | nil => rfl
  | cons x d ih =>
    cases i with
    | zero => cases x <;> simp [amiReference, oddOnes]
    | succ i => cases x <;> simp [amiReference, ih, oddOnes_cons]

end Sys2Proof.Safety

open Sys2Proof Sys2Proof.Machine Sys2Proof.Safety

/-- Settles O35: the reference is the machine's fold for NRZ-L, which keeps its level. -/
theorem lnrzlSamples : Obligations.LnrzlSamples := by
  intro s c rest hp
  rw [nrzlReference_eq .neg]
  exact exec_lineInstr .nrzL hp

/-- Settles O36: the reference is the machine's fold for Manchester, and the two samples of a bit are read off it. -/
theorem lmanSamples : Obligations.LmanSamples := by
  intro s c rest hp
  refine ⟨?_, fun i hi => ?_⟩
  · rw [manchesterReference_eq .neg]
    exact exec_lineInstr .manchester hp
  · have hbit : (c.din.take c.len)[i]? = some _ :=
      List.getElem?_eq_getElem (hi.trans_eq (operandOf_length hp.2).symm)
    obtain ⟨hfirst, hsecond⟩ := manchesterReference_getElem? hbit
    exact ⟨_, sampleOf_ne_zero _, hfirst, by rw [hsecond, opposite_sampleOf]⟩

/-- Settles O37: the reference from a level that is not up is the machine's fold for NRZ-I from its start. -/
theorem lnrziSamples : Obligations.LnrziSamples := by
  intro s c rest hp
  rw [nrziReference_eq]
  exact exec_lineInstr .nrzI hp

/-- Settles O38: the sign of a sample is the parity of the ones up to its bit, which only the later of two successive
ones changes. -/
theorem lamiSamples : Obligations.LamiSamples := by
  intro s c rest d hp hd
  refine ⟨?_, fun i hi => ?_, fun i j hij hi hj hzeros => ?_⟩
  · rw [amiReference_eq, ← hd]
    exact exec_lineInstr .ami hp
  · simp [amiReference_getElem?, hi]
  · have hparity : oddOnes (d.take (j + 1)) = !oddOnes (d.take (i + 1)) := by
      rw [oddOnes_take_succ hj, oddOnes_take_eq_of_zeros (Nat.succ_le_of_lt hij) hzeros, Bool.xor_true]
    refine ⟨sampleOf (oddOnes (d.take (i + 1))), sampleOf_ne_zero _, ?_, ?_⟩
    · simp [amiReference_getElem?, hi]
    · simp [amiReference_getElem?, hj, hparity]

/-- Settles O39: the reference from a level that is not up is the machine's fold for differential Manchester from its
start. -/
theorem ldmanSamples : Obligations.LdmanSamples := by
  intro s c rest hp
  rw [diffManchesterReference_eq]
  exact exec_lineInstr .diffManchester hp

/-- Settles O42: the samples are those of the fold, as many a bit as the variant gives, and a reserved tag is answered
with its fault. -/
theorem lineCodesAnswerEveryOperand : Obligations.LineCodesAnswerEveryOperand := by
  intro i s c rest hp
  have hlen := fun v => samplesFrom_take_length v .neg hp.2
  refine ⟨?_, ?_, ?_⟩
  · rintro (rfl | rfl | rfl)
    · exact ⟨_, exec_lineInstr .nrzL hp, (hlen .nrzL).trans (one_mul _)⟩
    · exact ⟨_, exec_lineInstr .nrzI hp, (hlen .nrzI).trans (one_mul _)⟩
    · exact ⟨_, exec_lineInstr .ami hp, (hlen .ami).trans (one_mul _)⟩
  · rintro (rfl | rfl)
    · exact ⟨_, exec_lineInstr .manchester hp, hlen .manchester⟩
    · exact ⟨_, exec_lineInstr .diffManchester hp, hlen .diffManchester⟩
  · rintro (rfl | rfl | rfl) <;> exact reservedTag_presented hp.1

end

section
/-! PROOFS. The list of faults of 60_exceptions.md R131, row by row: each status an answer can carry, with the exact
condition on the unit and the operand; the statements of R131 and R132 settled. -/

namespace Sys2Proof.Machine

open Sys2Proof.Safety

/-! ### The status each kind of response carries -/

@[simp] theorem faultResponse_status (f : OpFault) : (faultResponse f).status = faultStatus f := rfl
@[simp] theorem encodedResponse_status (d : Bitstring) : (encodedResponse d).status = .ok := rfl
@[simp] theorem decodedResponse_status (d : Bitstring) (p : Nat) : (decodedResponse d p).status = .ok := rfl
@[simp] theorem flippedResponse_status (d : Bitstring) (k : Nat) : (flippedResponse d k).status = .ok := rfl
@[simp] theorem samplesResponse_status (x : List Sample) : (samplesResponse x).status = .ok := rfl

/-! ### The unit of an instruction -/

/-- 30_encoding.md R61: the number of the unit that performs an instruction. -/
@[simp] def instrUnit : Instr → Nat
  | .henc _ => 0
  | .hdec _ => 1
  | .nflip _ => 2
  | _ => 3

theorem instrUnit_decodeWord (c : Command) : instrUnit (decodeWord c.cmd) = unitNumber c := by
  have all_words : ∀ w : CmdWord, instrUnit (decodeWord w) = w.toNat / 8 := by decide
  exact all_words c.cmd

/-- 42_linecode.md R118: the reserved tags are 5, 6 and 7 of the line-code unit. -/
theorem isReserved_decodeWord_iff (c : Command) :
    IsReserved (decodeWord c.cmd) ↔ unitNumber c = 3 ∧ 5 ≤ tagNumber c := by
  have all_words : ∀ w : CmdWord, (decodeWord w = .lrsvd5 ∨ decodeWord w = .lrsvd6 ∨ decodeWord w = .lrsvd7) ↔
      w.toNat / 8 = 3 ∧ 5 ≤ w.toNat % 8 := by decide
  exact all_words c.cmd

/-! ### The condition of each fault -/

/-- 60_exceptions.md R132: the length fault is raised by the block code unit alone, HENC off 8 and HDEC off 12. -/
theorem answerOf_status_eq_invalidLength_iff (i : Instr) (d : Bitstring) (k : Nat) :
    (answerOf i d k).status = .invalidLength ↔
      instrUnit i = 0 ∧ d.length ≠ 8 ∨ instrUnit i = 1 ∧ d.length ≠ 12 := by
  cases i with
  | henc _ | hdec _ | nflip _ => simp only [answerOf]; split_ifs <;> simp_all [faultStatus]
  | _ => simp [answerOf, faultStatus]

/-- 60_exceptions.md R133: the fault of an empty operand is raised by NFLIP alone. -/
theorem answerOf_status_eq_emptyInput_iff (i : Instr) (d : Bitstring) (k : Nat) :
    (answerOf i d k).status = .emptyInput ↔ instrUnit i = 2 ∧ d.length = 0 := by
  cases i with
  | henc _ | hdec _ | nflip _ => simp only [answerOf]; split_ifs <;> simp_all [faultStatus]
  | _ => simp [answerOf, faultStatus]

/-- 60_exceptions.md R135: a syndrome that names no element is HDEC's fault alone, and only where there is a block. -/
theorem answerOf_status_eq_uncorrectable_iff (i : Instr) (d : Bitstring) (k : Nat) :
    (answerOf i d k).status = .uncorrectable ↔ instrUnit i = 1 ∧ d.length = 12 ∧ 13 ≤ syndrome d := by
  cases i with
  | hdec _ => simp only [answerOf]; split_ifs <;> simp [faultStatus] <;> omega
  | henc _ | nflip _ => simp only [answerOf]; split_ifs <;> simp [faultStatus]
  | _ => simp [answerOf, faultStatus]

/-- 42_linecode.md R110: within the line-code unit only a reserved tag is a fault. -/
theorem answerOf_status_eq_ok_of_instrUnit_eq_three {i : Instr} (d : Bitstring) (k : Nat) (h : instrUnit i = 3)
    (hi : ¬ IsReserved i) : (answerOf i d k).status = .ok := by
  cases i with
  | henc _ | hdec _ | nflip _ => simp at h
  | lrsvd5 | lrsvd6 | lrsvd7 => simp [IsReserved] at hi
  | _ => rfl

/-- 60_exceptions.md R131: `info` has a value with `Uncorrectable` and with nothing else. -/
theorem answerOf_info_eq_none_iff (i : Instr) (d : Bitstring) (k : Nat) :
    (answerOf i d k).info = none ↔ (answerOf i d k).status ≠ .uncorrectable := by
  rcases answerOf_cases i d k with ⟨hok, hinfo⟩ | ⟨f, hf⟩
  · simp [hok, hinfo]
  · rw [hf]; exact faultInfo_eq_none_iff f

end Sys2Proof.Machine

namespace Sys2Proof.Safety

open Sys2Proof.Machine

/-- The response delivered can be read off the state that follows. -/
theorem afterAnswer_inj {s : State} {rest : List Command} {r r' : Response} :
    afterAnswer s rest r = afterAnswer s rest r' ↔ r = r' := by
  simp [afterAnswer]

end Sys2Proof.Safety

open Sys2Proof Sys2Proof.Machine Sys2Proof.Safety

/-- Settles O17: a step delivers the answer of the decoded instruction to the operand, and each status has its
condition there; the syndrome recorded is the one HDEC computed. -/
theorem faultsAreExactlyThoseListed : Obligations.FaultsAreExactlyThoseListed := by
  intro s c rest hr ⟨hs, hc⟩
  have hop : c.din.take c.len = operandOf c := rfl
  have hlen : (operandOf c).length = c.len := operandOf_length hc
  have hunit := instrUnit_decodeWord c
  have hreserved := isReserved_decodeWord_iff c
  refine ⟨_, _, (step_exec hr hs).trans (exec_eq_afterExec hs (.inl hc)), afterExec_responses .., ?_⟩
  rw [hop, syndromeOf_eq, answerIn]
  generalize (drawFor (decodeWord c.cmd) c.len (s.setCommands rest)).1 = k
  refine ⟨?_, ?_, ?_, ?_, fun hst => ?_, (answerOf_info_eq_none_iff ..).2, fun h3 htag => ?_⟩
  · rw [answerOf_status_eq_invalidLength_iff, hunit, hlen]
  · rw [answerOf_status_eq_emptyInput_iff, hunit, hlen]
  · rw [answerOf_status_eq_unsupportedEncoding_iff, hreserved]
  · rw [answerOf_status_eq_uncorrectable_iff, hunit, hlen]
  · obtain ⟨h1, h12, h13⟩ := (answerOf_status_eq_uncorrectable_iff ..).1 hst
    rw [decodeWord_of_unitNumber_one (hunit ▸ h1), answerOf_hdec_of_le_syndrome _ k h12 h13]
  · exact answerOf_status_eq_ok_of_instrUnit_eq_three _ k (hunit.trans h3) fun hi => by
      have := (hreserved.1 hi).2
      omega

/-- Settles O24: the two operations take no draw, so the state that follows tells the answer; off the block size it is
the bare fault, and on it the status is another. -/
theorem invalidLengthExactlyOnWrongBlockSize : Obligations.InvalidLengthExactlyOnWrongBlockSize := by
  intro tag s c rest hp
  have hlen : (operandOf c).length = c.len := operandOf_length hp.2
  rw [exec_eq_afterAnswer_of_ne_nflip (by simp) hp, exec_eq_afterAnswer_of_ne_nflip (by simp) hp, ← hlen]
  simp only [Host.Outcome.next.injEq, afterAnswer_inj]
  have condition (i : Instr) (h : answerOf i (operandOf c) 0 = statusOnly .invalidLength) :=
    (answerOf_status_eq_invalidLength_iff i _ 0).1 (congrArg Response.status h)
  exact ⟨⟨fun h => by simpa using condition _ h, answerOf_henc_of_length_ne tag 0⟩,
    ⟨fun h => by simpa using condition _ h, answerOf_hdec_of_length_ne tag 0⟩⟩

end

section
/-! PROOFS. The command word: decoding and encoding undo each other (30_encoding.md R60 to R64); the statements of R61
and of the written words settled from these, and that of the status codes. -/

namespace Sys2Proof

/-- The instruction comes back from its word: `encode` keeps the tag. -/
@[simp] theorem decodeWord_encode (i : Instr) : decodeWord (encode i) = i := by
  cases i with
  | henc tag | hdec tag | nflip tag => revert tag; decide
  | _ => rfl

/-- The word comes back from its instruction: `decodeWord` loses no bit. -/
@[simp] theorem encode_decodeWord (w : CmdWord) : encode (decodeWord w) = w := by
  revert w; decide

/-- A number that is a command word is decoded as that word. -/
theorem decode_toNat (w : CmdWord) : decode w.toNat = .ok (decodeWord w) := by
  rw [decode, if_pos w.isLt, BitVec.ofNat_toNat, BitVec.setWidth_eq]

/-- A row that holds at least the five bits of a command word is read as that word. -/
theorem decodeTableWord_toNat {nbits : Nat} (h : 5 ≤ nbits) (w : CmdWord) :
    decodeTableWord nbits w.toNat = some (decodeWord w) := by
  have hlt : w.toNat < 2 ^ nbits := w.isLt.trans_le (Nat.pow_le_pow_right (by decide) h)
  rw [decodeTableWord, Nat.mod_eq_of_lt hlt, decode_toNat]

/-- 30_encoding.md R61: the row of the table an instruction's word selects is its own. -/
theorem opcodeRow_statement (i : Instr) : Laws.OpcodeRow.Statement i := by
  cases i with
  | henc tag => exact Laws.OpcodeRow.henc tag
  | hdec tag => exact Laws.OpcodeRow.hdec tag
  | nflip tag => exact Laws.OpcodeRow.nflip tag
  | lnrzl => exact Laws.OpcodeRow.lnrzl
  | lman => exact Laws.OpcodeRow.lman
  | lnrzi => exact Laws.OpcodeRow.lnrzi
  | lami => exact Laws.OpcodeRow.lami
  | ldman => exact Laws.OpcodeRow.ldman
  | lrsvd5 => exact Laws.OpcodeRow.lrsvd5
  | lrsvd6 => exact Laws.OpcodeRow.lrsvd6
  | lrsvd7 => exact Laws.OpcodeRow.lrsvd7

end Sys2Proof

open Sys2Proof Sys2Proof.Machine

/-- Settles O3: both round trips on the word, and a table row of at least five bits is read as the word it holds. -/
theorem decodeAndEncodeAgree : Obligations.DecodeAndEncodeAgree :=
  ⟨decodeWord_encode, encode_decodeWord, fun i nbits h => by rw [decodeTableWord_toNat h, decodeWord_encode]⟩

/-- Settles O1: each word is that of the instruction it decodes to, and an instruction's word selects its own row. -/
theorem eachWordSelectsExactlyItsRow : Obligations.EachWordSelectsExactlyItsRow := by
  intro w
  simpa [Laws.OpcodeRow.Statement] using opcodeRow_statement (decodeWord w)

/-- Settles O2: the decoder computes the thirteen words written out. -/
theorem writtenWordsDecode : Obligations.WrittenWordsDecode := by
  unfold Obligations.WrittenWordsDecode
  decide

/-- Settles O6: the codes are those of the table, and each of the five is below 5. -/
theorem statusCodesAsTabled : Obligations.StatusCodesAsTabled := by
  refine ⟨rfl, rfl, rfl, rfl, rfl, fun x => ?_⟩
  cases x <;> decide

end

section
/-! PROOFS. What a step keeps: the fields of the state after an answer, that every answer is a lawful record of
10_state.md section 5, and the statements about reset, single steps and the invariant settled from these. -/

namespace Sys2Proof.Machine

open Sys2Proof.Safety

/-! ### A step on the command presented -/

@[simp] theorem afterExec_commands (i : Instr) (c : Command) (rest : List Command) (s : State) :
    (afterExec i c rest s).commands = rest := by
  simp [afterExec]

@[simp] theorem afterExec_rst (i : Instr) (c : Command) (rest : List Command) (s : State) :
    (afterExec i c rest s).rst = s.rst := by
  simp [afterExec]

/-- A command in good form is answered by the instruction its word decodes to. -/
theorem step_eq_afterExec {s : State} {c : Command} {rest : List Command} (hr : s.rst = false)
    (hs : s.commands = c :: rest) (hc : c.wf = true) :
    step s = .next (afterExec (decodeWord c.cmd) c rest s) :=
  (step_exec hr hs).trans (exec_eq_afterExec hs (.inl hc))

/-- A step that answered was that of the decoded instruction, and had something to answer. -/
theorem eq_afterExec_of_step_next {s t : State} {c : Command} {rest : List Command} (hr : s.rst = false)
    (hs : s.commands = c :: rest) (h : step s = .next t) :
    (c.wf = true ∨ IsReserved (decodeWord c.cmd)) ∧ t = afterExec (decodeWord c.cmd) c rest s := by
  rw [step_exec hr hs] at h
  obtain ⟨c', rest', hs', hc⟩ := presented_of_exec_next h
  obtain ⟨rfl, rfl⟩ : c = c' ∧ rest = rest' := by simpa using hs.symm.trans hs'
  exact ⟨hc, by simpa [exec_eq_afterExec hs hc] using h.symm⟩

/-- The instruction stored by `withFetchWord` stands first, out of reset (assumption log 2). -/
theorem withFetchWord_encode {nbits : Nat} (h : 5 ≤ nbits) (s : State) (i : Instr) :
    s.withFetchWord nbits (encode i).toNat = presentFirst i s := by
  simp [State.withFetchWord, decodeTableWord_toNat h]

/-! ### Every answer is a lawful record -/

/-- The draw of a noise operation is an index of its operand (41_noise.md R101). -/
theorem drawFor_nflip_lt (tag : TagField) {n : Nat} (hn : n ≠ 0) (s : State) : (drawFor (.nflip tag) n s).1 < n := by
  cases n with
  | zero => exact absurd rfl hn
  | succ m => exact (drawIndex_spec m s).1

/-- 60_exceptions.md R131, R135: a fault's record is lawful when the syndrome it records names no element. -/
theorem lawfulResponse_faultResponse {f : OpFault} (h : ∀ v, faultInfo f = some v → 13 ≤ v.toNat) :
    LawfulResponse (faultResponse f) := by
  have hinfo : faultInfo f ≠ none ↔ faultStatus f = .uncorrectable :=
    (not_congr (faultInfo_eq_none_iff f)).trans not_ne_iff
  refine ⟨rfl, rfl, fun _ => rfl, hinfo, h, ?_⟩
  simp [faultResponse, bareResponse]

theorem lawfulResponse_encodedResponse (d : Bitstring) : LawfulResponse (encodedResponse d) := by
  simp [LawfulResponse, encodedResponse, bareResponse]

/-- 40_blockcode.md R87: the position reported is at most 12, and 0 exactly when `err_valid` is 0. -/
theorem lawfulResponse_decodedResponse (d : Bitstring) {p : Nat} (hp : p ≤ 12) :
    LawfulResponse (decodedResponse d p) := by
  have hpos : (BitVec.ofNat 4 p).toNat = p := by simp; omega
  have hvalid : (p != 0) = decide (BitVec.ofNat 4 p ≠ 0#4) := by
    rw [Bool.eq_iff_iff, bne_iff_ne, decide_eq_true_iff, ← BitVec.toNat_ne_iff_ne, hpos]; rfl
  simp [LawfulResponse, decodedResponse, bareResponse, hpos, hp, hvalid]

/-- 41_noise.md R100: the index reported is an index of the operand. -/
theorem lawfulResponse_flippedResponse {d : Bitstring} {k : Nat} (hk : k < d.length) :
    LawfulResponse (flippedResponse d k) := by
  simp [LawfulResponse, flippedResponse, bareResponse, hk]

theorem lawfulResponse_samplesResponse (x : List Sample) : LawfulResponse (samplesResponse x) := by
  simp [LawfulResponse, samplesResponse, bareResponse]

/-- Every instruction answers with a lawful record, NFLIP when its draw is an index of the operand. -/
theorem lawfulResponse_answerOf {i : Instr} {d : Bitstring} {k : Nat}
    (hk : ∀ tag, i = .nflip tag → d.length ≠ 0 → k < d.length) : LawfulResponse (answerOf i d k) := by
  cases i with
  | henc _ =>
    simp only [answerOf]
    split_ifs
    · exact lawfulResponse_encodedResponse _
    · exact lawfulResponse_faultResponse (by simp [faultInfo])
  | hdec _ =>
    simp only [answerOf]
    split_ifs with h12 h0 hs
    · exact lawfulResponse_decodedResponse _ (by decide)
    · exact lawfulResponse_decodedResponse _ hs
    · refine lawfulResponse_faultResponse fun v hv => ?_
      have hlt := syndrome_lt d
      obtain rfl : BitVec.ofNat 4 (syndrome d) = v := by simpa [faultInfo] using hv
      rw [BitVec.toNat_ofNat]
      omega
    · exact lawfulResponse_faultResponse (by simp [faultInfo])
  | nflip tag =>
    simp only [answerOf]
    split_ifs with h0
    · exact lawfulResponse_faultResponse (by simp [faultInfo])
    · exact lawfulResponse_flippedResponse (by simpa using hk tag rfl h0)
  | lrsvd5 | lrsvd6 | lrsvd7 => exact lawfulResponse_faultResponse (by simp [faultInfo])
  | _ => exact lawfulResponse_samplesResponse _

/-- The answer to a command in good form is a lawful record. -/
theorem lawfulResponse_answerIn (i : Instr) {c : Command} (rest : List Command) (s : State) (hc : c.wf = true) :
    LawfulResponse (answerIn i c rest s) := by
  refine lawfulResponse_answerOf ?_
  rintro tag rfl h0
  rw [operandOf_length hc] at h0 ⊢
  exact drawFor_nflip_lt tag h0 _

end Sys2Proof.Machine

open Sys2Proof Sys2Proof.Machine Sys2Proof.Safety

/-- Settles O12: a reset and an idle step add nothing, and the step of an instruction adds its answer, a lawful
record. -/
theorem stepKeepsInv : Obligations.StepKeepsInv := by
  intro s t ⟨hcommands, hresponses⟩ hstep
  rcases step_cases s with ⟨_, e⟩ | ⟨_, _, e⟩ | ⟨c, rest, hr, hs, _⟩
  · obtain rfl : takeReset s = t := by simpa [e] using hstep
    exact ⟨fun c hc => hcommands c (List.mem_of_mem_tail hc), hresponses⟩
  · obtain rfl : s = t := by simpa [e] using hstep
    exact ⟨hcommands, hresponses⟩
  · obtain ⟨hc, hrest⟩ : c.wf = true ∧ ∀ c' ∈ rest, c'.wf = true := by simpa [hs] using hcommands
    obtain ⟨-, rfl⟩ := eq_afterExec_of_step_next hr hs hstep
    refine ⟨by simpa using hrest, fun r hmem => ?_⟩
    rcases List.mem_append.1 (afterExec_responses .. ▸ hmem) with hold | hnew
    · exact hresponses r hold
    · exact List.mem_singleton.1 hnew ▸ lawfulResponse_answerIn _ rest s hc

/-- Settles O11: nothing is presented and nothing has been delivered. -/
theorem invHoldsAtReset : Obligations.InvHoldsAtReset := by
  constructor <;> simp

/-- Settles O8: the reset values of the ports. -/
theorem resetStateIsIdle : Obligations.ResetStateIsIdle := ⟨rfl, rfl, rfl, rfl⟩

/-- Settles O9: the reset step takes the command away and releases the input. -/
theorem resetAbandonsCommandInProgress : Obligations.ResetAbandonsCommandInProgress := fun _ hr => step_reset hr

/-- Settles O7: out of reset a step performs the decoded word, and the word `withFetchWord` stores decodes to its
instruction. -/
theorem stepPerformsDecodedCommand : Obligations.StepPerformsDecodedCommand := by
  refine ⟨fun s c rest hr hs => step_exec hr hs, fun s hr hs => step_idle hr hs, fun s i nbits h => ?_⟩
  have hs : (presentFirst i s).commands = zeroCommand i :: s.commands := rfl
  have hword : decodeWord (zeroCommand i).cmd = i := decodeWord_encode i
  rw [withFetchWord_encode h, step_exec rfl hs, hword]

/-- Settles O46: the three instructions answer with their fault without the operand, and the words of the last clause
decode to them. -/
theorem reservedTagsRaiseUnsupportedEncoding : Obligations.ReservedTagsRaiseUnsupportedEncoding := by
  intro s c rest hs
  have hanswer := reservedTag_presented hs
  refine ⟨hanswer, hanswer, hanswer, fun hr hcmd => ?_⟩
  rw [step_exec hr hs]
  rcases hcmd with h | h | h <;> rw [h] <;> exact hanswer

end

section
/-! PROOFS. Commands one after another: what an answer depends on, the state after two of them, and the statements on
runs, on the command and draw an answer depends on, on the order of two commands and on faults settled. -/

namespace Sys2Proof.Machine

open Sys2Proof.Safety

/-! ### What a draw and an answer depend on -/

/-- The noise source does not look at the commands presented. -/
theorem drawIndex_with_commands (m : Nat) (s : State) (cs : List Command) :
    drawIndex m { s with commands := cs } = ((drawIndex m s).1, { (drawIndex m s).2 with commands := cs }) := by
  rcases drawIndex_cases m s with ⟨k, ks, hn, hk, e⟩ | ⟨k, ks, hn, hk, e⟩ | ⟨hn, e⟩
  · rw [e]; exact drawIndex_supplied hn hk
  · simp [drawIndex, hn, hk, freeDraw, State.setNoise, State.countFreeDraw]
  · simp [drawIndex, hn, freeDraw, State.countFreeDraw]

theorem drawFor_with_commands (i : Instr) (n : Nat) (s : State) (cs : List Command) :
    drawFor i n { s with commands := cs } =
      ((drawFor i n s).1, { (drawFor i n s).2 with commands := cs }) := by
  cases i with
  | nflip _ =>
    cases n with
    | zero => rfl
    | succ m => exact drawIndex_with_commands m s cs
  | _ => rfl

/-- The state after an answer: the draws are those of the noise source, which looks at nothing else. -/
theorem afterExec_eq (i : Instr) (c : Command) (rest : List Command) (s : State) :
    afterExec i c rest s =
      { (drawFor i c.len s).2 with
        commands := rest
        responses := s.responses ++ [answerOf i (operandOf c) (drawFor i c.len s).1] } := by
  have draw : drawFor i c.len (s.setCommands rest) =
    ((drawFor i c.len s).1, { (drawFor i c.len s).2 with commands := rest }) := drawFor_with_commands ..
  simp [afterExec, answerIn, draw, State.deliver]

/-- An instruction of another unit than the noise unit takes no draw, and an empty operand takes none. -/
theorem drawFor_eq_of_no_draw {i : Instr} {n : Nat} (h : instrUnit i ≠ 2 ∨ n = 0) (s : State) :
    drawFor i n s = (0, s) := by
  cases i with
  | nflip _ =>
    obtain rfl : n = 0 := by simpa using h
    rfl
  | _ => rfl

/-- An instruction of the noise unit draws the supplied index when it is in range. -/
theorem drawFor_eq_of_supplied {i : Instr} {n k : Nat} {ks : List Nat} {s : State} (hi : instrUnit i = 2)
    (hs : s.noise = k :: ks) (hk : k < n) : drawFor i n s = (k, s.setNoise ks) := by
  cases i with
  | nflip _ =>
    cases n with
    | zero => simp at hk
    | succ m => exact drawIndex_supplied hs hk
  | _ => simp at hi

/-- Outside the noise unit an answer does not depend on the draw. -/
theorem answerOf_eq_of_instrUnit_ne_two {i : Instr} (hi : instrUnit i ≠ 2) (d : Bitstring) (k k' : Nat) :
    answerOf i d k = answerOf i d k' := by
  cases i with
  | nflip _ => exact absurd rfl hi
  | _ => rfl

/-- The draw an answer depends on is the index it reports. -/
theorem answerOf_eq_of_flipIdx_eq {i : Instr} {d : Bitstring} {k k' : Nat}
    (h : (answerOf i d k).flipIdx = (answerOf i d k').flipIdx) : answerOf i d k = answerOf i d k' := by
  by_cases hi : instrUnit i = 2
  · cases i with
    | nflip _ =>
      simp only [answerOf] at h ⊢
      split_ifs at h ⊢
      · rfl
      · obtain rfl : k = k' := by simpa [flippedResponse] using h
        rfl
    | _ => simp at hi
  · exact answerOf_eq_of_instrUnit_ne_two hi d k k'

/-! ### A run -/

/-- A run whose first step answers a command in good form goes on from the state after that answer. -/
theorem run_succ_of_presented {s : State} {c : Command} {rest : List Command} (n : Nat) (hr : s.rst = false)
    (hs : s.commands = c :: rest) (hc : c.wf = true) :
    Sys2Proof.core.run (n + 1) s = Sys2Proof.core.run n (afterExec (decodeWord c.cmd) c rest s) :=
  run_succ n (step_eq_afterExec hr hs hc)

/-- As many steps as there are commands in good form answer them all. -/
theorem run_answers_all {s : State} {cs : List Command} (hs : s.commands = cs) (hr : s.rst = false)
    (hc : ∀ c ∈ cs, c.wf = true) :
    ∃ (t : State) (answers : List Response), Sys2Proof.core.run cs.length s = .next t ∧
      t.commands = [] ∧ t.rst = false ∧ t.responses = s.responses ++ answers ∧ answers.length = cs.length := by
  induction cs generalizing s with
  | nil => exact ⟨s, [], rfl, hs, hr, by simp, rfl⟩
  | cons c cs ih =>
    obtain ⟨hc, hcs⟩ : c.wf = true ∧ ∀ c' ∈ cs, c'.wf = true := by simpa using hc
    obtain ⟨t, answers, hrun, ht, hrt, hresp, hlen⟩ :=
      ih (afterExec_commands (decodeWord c.cmd) c cs s) ((afterExec_rst ..).trans hr) hcs
    refine ⟨t, answerIn (decodeWord c.cmd) c cs s :: answers, ?_, ht, hrt, ?_, by simp [hlen]⟩
    · exact (run_succ_of_presented _ hr hs hc).trans hrun
    · simp [hresp]

/-- Two steps on two commands in good form: the second draws from what the first left. -/
theorem run_two {s₀ s t u : State} {c1 c2 : Command} {rest : List Command} {k1 k2 : Nat}
    (hs : s₀ = { s with commands := c1 :: c2 :: rest }) (hr : s.rst = false) (hc1 : c1.wf = true)
    (hc2 : c2.wf = true) (h1 : drawFor (decodeWord c1.cmd) c1.len s = (k1, t))
    (h2 : drawFor (decodeWord c2.cmd) c2.len t = (k2, u)) :
    Sys2Proof.core.run 2 s₀ = .next { u.setCommands rest with
      responses := s.responses ++
        [answerOf (decodeWord c1.cmd) (operandOf c1) k1, answerOf (decodeWord c2.cmd) (operandOf c2) k2] } := by
  have hsecond (rs : List Response) :
      drawFor (decodeWord c2.cmd) c2.len { t with commands := c2 :: rest, responses := rs } =
        (k2, { u with commands := c2 :: rest, responses := rs }) := by
    rw [drawFor_with_responses _ _ { t with commands := c2 :: rest }, drawFor_with_commands, h2]
  subst hs
  refine (run_succ_of_presented 1 (s := { s with commands := c1 :: c2 :: rest }) hr rfl hc1).trans
    ((run_succ_of_presented 0 ((afterExec_rst ..).trans hr) (afterExec_commands ..) hc2).trans ?_)
  rw [afterExec_eq, afterExec_eq, drawFor_with_commands, h1, hsecond]
  simp [Host.Core.run, State.setCommands]

/-! ### A fault -/

/-- A fault takes no draw: it changes nothing but that the command has been answered. -/
theorem afterExec_eq_afterAnswer_of_fault {i : Instr} {c : Command} {rest : List Command} {s : State}
    (hc : c.wf = true ∨ IsReserved i) (h : (answerIn i c rest s).status ≠ .ok) :
    afterExec i c rest s = afterAnswer s rest (answerIn i c rest s) := by
  have hdraw : instrUnit i ≠ 2 ∨ c.len = 0 := by
    by_contra hne
    obtain ⟨hi, hlen⟩ : instrUnit i = 2 ∧ c.len ≠ 0 := by simpa using hne
    cases i with
    | nflip _ =>
      have hc : c.wf = true := by simpa [IsReserved] using hc
      exact h (by simp [answerIn, answerOf, operandOf_length hc, hlen])
    | _ => simp at hi
  simp [afterExec, drawFor_eq_of_no_draw hdraw, afterAnswer_eq]

end Sys2Proof.Machine

open Sys2Proof Sys2Proof.Machine Sys2Proof.Safety

/-- Settles O13: each step answers the command in front and leaves the others as they are. -/
theorem everyCommandIsAnsweredOnce : Obligations.EveryCommandIsAnsweredOnce :=
  fun _ hr hc => run_answers_all rfl hr hc

/-- Settles O14: both responses are the decoded instruction's answer to one operand, which depends on the draw in the
noise unit alone, and there reports it. -/
theorem responseDependsOnCommandAndDrawAlone : Obligations.ResponseDependsOnCommandAndDrawAlone := by
  intro s s' c rest rest' hr hr' ⟨hs, hc⟩ ⟨hs', _⟩
  refine ⟨_, _, _, _, step_eq_afterExec hr hs hc, afterExec_responses .., step_eq_afterExec hr' hs' hc,
    afterExec_responses .., answerOf_eq_of_flipIdx_eq, fun hunit => ?_⟩
  exact answerOf_eq_of_instrUnit_ne_two ((instrUnit_decodeWord c).trans_ne hunit) ..

/-- Settles O16: a command that takes no draw leaves the draws of the other as they are, and two noise commands with
supplied indices each draw their own. -/
theorem commandsCommute : Obligations.CommandsCommute := by
  intro s c1 c2 rest hr hs hc1 hc2
  have hself : s = { s with commands := c1 :: c2 :: rest } := by rw [← hs]
  have hunit1 := instrUnit_decodeWord c1
  have hunit2 := instrUnit_decodeWord c2
  refine ⟨fun hone => ?_, fun k1 k2 ks h1 h2 hk1 hk2 hn => ?_⟩
  · rw [← hunit1, ← hunit2, ← or_assoc] at hone
    rcases hone with hno | hno
    · have hdraw1 := drawFor_eq_of_no_draw hno
      exact ⟨_, _, _, run_two hself hr hc1 hc2 (hdraw1 s) rfl, run_two rfl hr hc2 hc1 rfl (hdraw1 _)⟩
    · have hdraw2 := drawFor_eq_of_no_draw hno
      exact ⟨_, _, _, run_two hself hr hc1 hc2 rfl (hdraw2 _), run_two rfl hr hc2 hc1 (hdraw2 _) rfl⟩
  · have draw1 {t : State} {js : List Nat} (ht : t.noise = k1 :: js) :=
      drawFor_eq_of_supplied (hunit1.trans h1) ht hk1
    have draw2 {t : State} {js : List Nat} (ht : t.noise = k2 :: js) :=
      drawFor_eq_of_supplied (hunit2.trans h2) ht hk2
    exact ⟨(s.setNoise ks).setCommands rest, _, _, run_two hself hr hc1 hc2 (draw1 hn) (draw2 rfl),
      run_two (s := { s with noise := k2 :: k1 :: ks }) rfl hr hc2 hc1 (draw2 rfl) (draw1 rfl)⟩

/-- Settles O19: a fault takes no draw, so that the state after it differs from the one without the command in the
responses delivered alone, which no step reads. -/
theorem faultLeavesNoTrace : Obligations.FaultLeavesNoTrace := by
  intro s t c rest r hr hs hstep hresp hfault
  obtain ⟨hc, rfl⟩ := eq_afterExec_of_step_next hr hs hstep
  obtain rfl : answerIn (decodeWord c.cmd) c rest s = r := by simpa using hresp
  have hafter := afterExec_eq_afterAnswer_of_fault hc hfault
  refine ⟨hafter, fun u added hu hadded => ?_⟩
  obtain ⟨added', hadded', hnext⟩ := deliveredResponsesAreNeverRead _ u (s.responses ++ [_]) hu
  obtain rfl : added = added' := List.append_cancel_left (hadded.symm.trans hadded')
  rw [hafter]
  simpa [afterAnswer] using hnext

end

section
/-! PROOFS. Which fields a successful operation writes (10_state.md section 5, the column 'written by') and what each
unit answers to an empty operand (60_exceptions.md R133); the two statements settled. -/

namespace Sys2Proof.Machine

open Sys2Proof.Safety

/-! ### A successful answer, unit by unit -/

/-- The answer of a successful operation is the record of its unit. -/
theorem answerOf_of_status_eq_ok {i : Instr} {d : Bitstring} {k : Nat} (h : (answerOf i d k).status = .ok) :
    (instrUnit i = 0 ∧ ∃ x : Bitstring, x.length = 12 ∧ answerOf i d k = encodedResponse x) ∨
    (instrUnit i = 1 ∧ ∃ (x : Bitstring) (p : Nat), x.length = 8 ∧ answerOf i d k = decodedResponse x p) ∨
    (instrUnit i = 2 ∧ answerOf i d k = flippedResponse (flipAt d k) k) ∨
    (instrUnit i = 3 ∧ ∃ v, i = lineInstr v ∧ answerOf i d k = samplesResponse (samplesFrom v .neg d)) := by
  cases i with
  | henc _ =>
    simp only [answerOf] at h ⊢
    split_ifs at h ⊢
    · exact .inl ⟨rfl, _, encodeBlock_length d, rfl⟩
    · simp [faultStatus] at h
  | hdec _ =>
    simp only [answerOf] at h ⊢
    split_ifs at h ⊢
    · exact .inr (.inl ⟨rfl, _, _, extractData_length _, rfl⟩)
    · exact .inr (.inl ⟨rfl, _, _, extractData_length _, rfl⟩)
    · simp [faultStatus] at h
    · simp [faultStatus] at h
  | nflip _ =>
    simp only [answerOf] at h ⊢
    split_ifs at h ⊢
    · simp [faultStatus] at h
    · exact .inr (.inr (.inl ⟨rfl, rfl⟩))
  | lnrzl => exact .inr (.inr (.inr ⟨rfl, .nrzL, rfl, rfl⟩))
  | lman => exact .inr (.inr (.inr ⟨rfl, .manchester, rfl, rfl⟩))
  | lnrzi => exact .inr (.inr (.inr ⟨rfl, .nrzI, rfl, rfl⟩))
  | lami => exact .inr (.inr (.inr ⟨rfl, .ami, rfl, rfl⟩))
  | ldman => exact .inr (.inr (.inr ⟨rfl, .diffManchester, rfl, rfl⟩))
  | lrsvd5 | lrsvd6 | lrsvd7 => simp [answerOf, faultStatus] at h

/-- 30_encoding.md R63, 42_linecode.md R112: the tags of LMAN and LDMAN are those with two samples a bit. -/
theorem samplesPerBit_of_decodeWord {c : Command} {v : Variant} (h : decodeWord c.cmd = lineInstr v) :
    samplesPerBit v = if tagNumber c = 1 ∨ tagNumber c = 4 then 2 else 1 := by
  have all_words : ∀ w : CmdWord, decodeWord w = lineInstr v →
      samplesPerBit v = if w.toNat % 8 = 1 ∨ w.toNat % 8 = 4 then 2 else 1 := by
    cases v <;> decide
  exact all_words c.cmd h

/-! ### The line-code instructions -/

/-- The five line codes are the instructions of the five variants. -/
theorem line_instr_iff (i : Instr) :
    (i = .lnrzl ∨ i = .lman ∨ i = .lnrzi ∨ i = .lami ∨ i = .ldman) ↔ ∃ v, i = lineInstr v := by
  constructor
  · rintro (rfl | rfl | rfl | rfl | rfl)
    · exact ⟨.nrzL, rfl⟩
    · exact ⟨.manchester, rfl⟩
    · exact ⟨.nrzI, rfl⟩
    · exact ⟨.ami, rfl⟩
    · exact ⟨.diffManchester, rfl⟩
  · rintro ⟨v, rfl⟩
    cases v <;> simp [lineInstr]

end Sys2Proof.Machine

open Sys2Proof Sys2Proof.Machine Sys2Proof.Safety

/-- Settles O20: a successful answer is the record of its unit, whose fields and lengths are those of the table. -/
theorem operationsWriteTheirFields : Obligations.OperationsWriteTheirFields := by
  intro s c rest hr ⟨hs, hc⟩
  refine ⟨_, _, step_eq_afterExec hr hs hc, afterExec_responses .., fun hok => ?_⟩
  have hlen : (operandOf c).length = c.len := operandOf_length hc
  rw [← instrUnit_decodeWord c]
  unfold answerIn at hok ⊢
  rcases answerOf_of_status_eq_ok hok with
    ⟨hu, x, hx, e⟩ | ⟨hu, x, p, hx, e⟩ | ⟨hu, e⟩ | ⟨hu, v, hv, e⟩ <;> rw [hu, e]
  · simp [encodedResponse, bareResponse, hx]
  · simp [decodedResponse, bareResponse, hx]
  · simp [flippedResponse, bareResponse, hlen]
  · have hcount := samplesPerBit_of_decodeWord hv
    have hsamples : (samplesFrom v .neg (operandOf c)).length =
        if tagNumber c = 1 ∨ tagNumber c = 4 then 2 * c.len else c.len := by
      rw [samplesFrom_length, hcount, hlen]
      split_ifs <;> simp
    simp [samplesResponse, bareResponse, hsamples]

/-- Settles O21: an empty operand is off every block size, gives the noise unit no index and a line code no bit. -/
theorem emptyOperandByUnit : Obligations.EmptyOperandByUnit := by
  intro s c rest tag hp h0
  have hempty : (operandOf c).length = 0 := (operandOf_length hp.2).trans h0
  refine ⟨execNflip_empty tag hp.1 hp.2 h0, ?_, ?_, fun i hi => ?_⟩
  · rw [exec_eq_afterAnswer_of_ne_nflip (by simp) hp, answerOf_henc_of_length_ne tag 0 (by simp [hempty])]
  · rw [exec_eq_afterAnswer_of_ne_nflip (by simp) hp, answerOf_hdec_of_length_ne tag 0 (by simp [hempty])]
  · obtain ⟨v, rfl⟩ := (line_instr_iff i).1 hi
    rw [exec_lineInstr v hp, h0]
    rfl

end

section
/-! PROOFS. The block code: linearity and distance of its codewords, what HDEC answers to a codeword and to one with one
or two elements inverted, and the statements of 40_blockcode.md sections 2, 3 and 5 settled from these. -/

namespace Sys2Proof.Safety

open Sys2Proof.Machine

/-! ### The distance of two bitstrings -/

theorem distance_cons (x y : Bit) (a b : Bitstring) :
    distance (x :: a) (y :: b) = distance a b + (x ^^ y).toNat := by
  cases x <;> cases y <;> simp [distance]

@[simp] theorem distance_self (a : Bitstring) : distance a a = 0 := by
  induction a with
  | nil => rfl
  | cons x a ih => simp [distance_cons, ih]

theorem eq_of_distance_eq_zero {a b : Bitstring} (hlen : b.length = a.length) (h : distance a b = 0) : b = a := by
  induction a generalizing b with
  | nil => simpa using hlen
  | cons x a ih =>
    obtain ⟨y, b, rfl⟩ := List.exists_cons_of_length_eq_add_one hlen
    obtain ⟨hab, hxy⟩ : distance a b = 0 ∧ (x ^^ y).toNat = 0 := by simpa [distance_cons] using h
    obtain rfl : x = y := by simpa using hxy
    rw [ih (by simpa using hlen) hab]

/-- One inverted element more, which was as in `a`, is one difference more. -/
theorem distance_flipAt {a b : Bitstring} (hlen : b.length = a.length) {k : Nat} (hk : k < a.length)
    (h : b[k]? = a[k]?) : distance a (flipAt b k) = distance a b + 1 := by
  induction a generalizing b k with
  | nil => simp at hk
  | cons x a ih =>
    obtain ⟨y, b, rfl⟩ := List.exists_cons_of_length_eq_add_one hlen
    cases k with
    | zero =>
      obtain rfl : y = x := by simpa using h
      simp [flipAt, distance_cons]
    | succ k =>
      have := ih (by simpa using hlen) (by simpa using hk) (by simpa using h)
      simp only [flipAt, distance_cons, this]
      omega

/-- At distance 1 is what one inversion makes. -/
theorem exists_flipAt_of_distance_eq_one {a b : Bitstring} (hlen : b.length = a.length) (h : distance a b = 1) :
    ∃ p < a.length, b = flipAt a p := by
  induction a generalizing b with
  | nil => simp [distance] at h
  | cons x a ih =>
    obtain ⟨y, b, rfl⟩ := List.exists_cons_of_length_eq_add_one hlen
    have hlen' : b.length = a.length := by simpa using hlen
    rw [distance_cons] at h
    by_cases hxy : x = y
    · subst hxy
      obtain ⟨p, hp, rfl⟩ := ih hlen' (by simpa using h)
      exact ⟨p + 1, by simpa using hp, rfl⟩
    · obtain rfl : y = !x := Bool.eq_not.2 (Ne.symm hxy)
      obtain rfl : b = a := eq_of_distance_eq_zero hlen' (by simpa using h)
      exact ⟨0, by simp, rfl⟩

/-- The exclusive OR of two different bitstrings holds a 1. -/
theorem true_mem_zipWith_xor {a b : Bitstring} (hlen : b.length = a.length) (h : a ≠ b) :
    true ∈ List.zipWith (fun x y => x ^^ y) a b := by
  by_contra hno
  exact h (eq_of_distance_eq_zero hlen (List.count_eq_zero_of_not_mem hno)).symm

end Sys2Proof.Safety

namespace Sys2Proof.Machine

open Sys2Proof.Safety

/-! ### The codewords -/

/-- 40_blockcode.md section 2 (c): the encoder is linear for the exclusive OR. -/
theorem encodeBlock_zipWith_xor {a b : Bitstring} (ha : a.length = 8) (hb : b.length = 8) :
    encodeBlock (List.zipWith (fun x y => x ^^ y) a b) =
      List.zipWith (fun x y => x ^^ y) (encodeBlock a) (encodeBlock b) := by
  obtain ⟨a0, a1, a2, a3, a4, a5, a6, a7, rfl⟩ := eight_elements ha
  obtain ⟨b0, b1, b2, b3, b4, b5, b6, b7, rfl⟩ := eight_elements hb
  simp only [List.zipWith_cons_cons, List.zipWith_nil_right, encodeBlock_elements, List.cons.injEq, and_true]
  refine ⟨?_, ?_, trivial, ?_, trivial, trivial, trivial, ?_⟩ <;> simp only [Bool.xor_comm, Bool.xor_left_comm]

/-- 40_blockcode.md section 2 (e): a codeword of a block that is not all 0 has at least three ones. -/
theorem three_le_count_encodeBlock {d : Bitstring} (h : d.length = 8) (hone : true ∈ d) :
    3 ≤ (encodeBlock d).count true := by
  obtain ⟨d0, d1, d2, d3, d4, d5, d6, d7, rfl⟩ := eight_elements h
  rw [encodeBlock_elements]
  revert d0 d1 d2 d3 d4 d5 d6 d7
  decide

/-- Two different blocks have codewords that differ in at least three elements. -/
theorem three_le_distance_encodeBlock {a b : Bitstring} (ha : a.length = 8) (hb : b.length = 8) (h : a ≠ b) :
    3 ≤ distance (encodeBlock a) (encodeBlock b) := by
  rw [distance, ← encodeBlock_zipWith_xor ha hb]
  exact three_le_count_encodeBlock (by simp [ha, hb]) (true_mem_zipWith_xor (hb.trans ha.symm) h)

/-- 40_blockcode.md R85 (b): a block with syndrome 0 is the codeword of its data elements. -/
theorem encodeBlock_extractData {r : Bitstring} (h : r.length = 12) (hs : syndrome r = 0) :
    encodeBlock (extractData r) = r := by
  obtain ⟨r0, r1, r2, r3, r4, r5, r6, r7, r8, r9, r10, r11, rfl⟩ := twelve_elements h
  have first_of_even : ∀ a b : Bool, (a ^^ b) = false → b = a := by decide
  simp only [syndrome_elements, Nat.add_eq_zero_iff, Nat.mul_eq_zero, Bool.toNat_eq_zero, Bool.xor_assoc,
    OfNat.ofNat_ne_zero, false_or] at hs
  obtain ⟨⟨⟨h1, h2⟩, h4⟩, h8⟩ := hs
  rw [show extractData _ = [r2, r4, r5, r6, r8, r9, r10, r11] from rfl, encodeBlock_elements]
  simp only [Bool.xor_assoc, first_of_even _ _ h1, first_of_even _ _ h2, first_of_even _ _ h4, first_of_even _ _ h8]

/-- Inverting the element a syndrome names gives a codeword. -/
theorem syndrome_flipAt_syndrome {r : Bitstring} (h : r.length = 12) (h1 : 1 ≤ syndrome r) (h12 : syndrome r ≤ 12) :
    syndrome (flipAt r (syndrome r - 1)) = 0 := by
  rw [syndrome_flipAt h (by omega), Nat.sub_add_cancel h1, Nat.xor_self]

/-! ### What HENC and HDEC answer -/

/-- HENC on a data block: its codeword, and no other change. -/
theorem exec_henc_block {s : State} {c : Command} {rest : List Command} (tag : TagField) (hp : Presents s c rest)
    (h8 : c.len = 8) :
    exec (.henc tag) s = .next (afterAnswer s rest
      { statusOnly .ok with dlen := some 12, dout := some (encodeBlock (c.din.take 8)) }) := by
  rw [exec_eq_afterAnswer_of_ne_nflip (by simp) hp,
    answerOf_henc_of_length_eq tag 0 ((operandOf_length hp.2).trans h8), operandOf, h8]

/-- The data block of a command of eight elements. -/
theorem take_eight_length {c : Command} (hc : c.wf = true) (h8 : c.len = 8) : (c.din.take 8).length = 8 := by
  rw [← h8]
  exact operandOf_length hc

/-- HDEC on a codeword: its data, and no error. -/
theorem answerOf_hdec_encodeBlock (tag : TagField) (k : Nat) {d : Bitstring} (hd : d.length = 8) :
    answerOf (.hdec tag) (encodeBlock d) k =
      { statusOnly .ok with dlen := some 8, dout := some d, errValid := some false, errPos := some 0#4 } := by
  rw [answerOf_hdec_of_syndrome_eq_zero tag k (encodeBlock_length d) (syndrome_encodeBlock hd),
    extractData_encodeBlock hd]

/-- HDEC on a codeword with one element inverted: its data, and the position of that element. -/
theorem answerOf_hdec_flipAt_encodeBlock (tag : TagField) (k : Nat) {d : Bitstring} (hd : d.length = 8) {p : Nat}
    (hp : p < 12) :
    answerOf (.hdec tag) (flipAt (encodeBlock d) p) k =
      { statusOnly .ok with
        dlen := some 8, dout := some d, errValid := some true, errPos := some (BitVec.ofNat 4 (p + 1)) } := by
  have hs : syndrome (flipAt (encodeBlock d) p) = p + 1 := by
    rw [syndrome_flipAt (encodeBlock_length d) hp, syndrome_encodeBlock hd, Nat.zero_xor]
  rw [answerOf_hdec_of_syndrome_le tag k (by simp) (by omega) (by omega), hs, Nat.add_sub_cancel, flipAt_flipAt,
    extractData_encodeBlock hd]

/-- HDEC on an operand: its answer, and no other change. -/
theorem exec_hdec_operand {s : State} {c : Command} {rest : List Command} {r : Bitstring} (tag : TagField)
    (hp : Presents s c rest) (hr : c.din.take c.len = r) :
    exec (.hdec tag) s = .next (afterAnswer s rest (answerOf (.hdec tag) r 0)) := by
  rw [exec_eq_afterAnswer_of_ne_nflip (by simp) hp, operandOf, hr]

/-- What HDEC answers within one inversion of the codeword of a data block. -/
theorem answerOf_hdec_of_distance_le_one (tag : TagField) {d r : Bitstring} (hd : d.length = 8) (hr : r.length = 12)
    (h : distance (codeword d) r ≤ 1) :
    (answerOf (.hdec tag) r 0).status = .ok ∧ (answerOf (.hdec tag) r 0).dout = some d ∧
      (answerOf (.hdec tag) r 0).errValid = some (distance (codeword d) r == 1) := by
  have hlen : r.length = (codeword d).length := hr
  rcases Nat.le_one_iff_eq_zero_or_eq_one.1 h with h0 | h1
  · obtain rfl := eq_of_distance_eq_zero hlen h0
    rw [distance_self, codeword_eq hd, answerOf_hdec_encodeBlock tag 0 hd]
    exact ⟨rfl, rfl, rfl⟩
  · obtain ⟨p, hp, rfl⟩ := exists_flipAt_of_distance_eq_one hlen h1
    rw [h1, codeword_eq hd, answerOf_hdec_flipAt_encodeBlock tag 0 hd hp]
    exact ⟨rfl, rfl, rfl⟩

/-- A block HDEC answers with OK is within one inversion of the codeword of a data block. -/
theorem exists_codeword_of_answerOf_hdec_ok (tag : TagField) {r : Bitstring} (hr : r.length = 12)
    (h : (answerOf (.hdec tag) r 0).status = .ok) :
    ∃ d : Bitstring, d.length = 8 ∧ distance (codeword d) r ≤ 1 := by
  by_cases h0 : syndrome r = 0
  · exact ⟨extractData r, rfl, by rw [codeword_eq rfl, encodeBlock_extractData hr h0, distance_self]; decide⟩
  · by_cases h12 : syndrome r ≤ 12
    · have h1 : 1 ≤ syndrome r := Nat.one_le_iff_ne_zero.2 h0
      have hflip : (flipAt r (syndrome r - 1)).length = 12 := (flipAt_length ..).trans hr
      refine ⟨extractData (flipAt r (syndrome r - 1)), rfl, ?_⟩
      rw [codeword_eq rfl, encodeBlock_extractData hflip (syndrome_flipAt_syndrome hr h1 h12)]
      have := distance_flipAt (a := flipAt r (syndrome r - 1)) rfl (k := syndrome r - 1) (by omega) rfl
      rw [flipAt_flipAt, distance_self] at this
      exact this.le
    · rw [answerOf_hdec_of_le_syndrome tag 0 hr (by omega)] at h
      simp [statusOnly] at h

/-- Two inverted elements are beyond correction: the data HDEC would answer is not the original's. -/
theorem extractData_flipAt_ne_of_two_inversions {d : Bitstring} {p q m : Nat} (hp : p < 12)
    (hpq : p ≠ q) (hpm : p ≠ m) (hs : syndrome (flipAt (flipAt (flipAt (encodeBlock d) p) q) m) = 0) :
    extractData (flipAt (flipAt (flipAt (encodeBlock d) p) q) m) ≠ d := by
  intro hdata
  have hback := encodeBlock_extractData (by simp) hs
  have hinverted : (flipAt (flipAt (flipAt (encodeBlock d) p) q) m)[p]? = (encodeBlock d)[p]?.map (!·) := by
    rw [flipAt_getElem?_ne _ hpm, flipAt_getElem?_ne _ hpq, flipAt_getElem?_self]
  rw [← hback, hdata, List.getElem?_eq_getElem hp] at hinverted
  simp at hinverted

/-! ### The syndrome as the exclusive OR of positions -/

/-- 40_blockcode.md section 3 (a): the syndrome is the exclusive OR of the positions that are 1. -/
theorem xor_of_positions_eq_syndrome {r : Bitstring} (h : r.length = 12) :
    ((List.range 12).filter fun j => r.getD j false).foldl (fun acc j => acc ^^^ BitVec.ofNat 4 (j + 1)) 0#4 =
      BitVec.ofNat 4 (syndrome r) := by
  obtain ⟨r0, r1, r2, r3, r4, r5, r6, r7, r8, r9, r10, r11, rfl⟩ := twelve_elements h
  have bits : ∀ a b c d : Bool, BitVec.ofNat 4 (a.toNat + 2 * b.toNat + 4 * c.toNat + 8 * d.toNat) =
      BitVec.ofBoolListLE [a, b, c, d] := by decide
  have selected : ∀ (b : Bool) (acc v : BitVec 4) (n : Nat),
      (if b then acc ^^^ v else acc).getLsbD n = (acc.getLsbD n ^^ (b && v.getLsbD n)) := by
    intro b acc v n
    cases b <;> simp
  rw [List.foldl_filter, syndrome_elements, bits]
  apply BitVec.eq_of_getLsbD_eq
  intro n hn
  simp only [List.range, List.range.loop, List.foldl, selected]
  interval_cases n <;> simp [BitVec.ofBoolListLE]

end Sys2Proof.Machine

open Sys2Proof Sys2Proof.Machine Sys2Proof.Safety

/-- Settles O25: HENC answers with the codeword, on which HDEC finds syndrome 0. -/
theorem hdecInvertsHenc : Obligations.HdecInvertsHenc := by
  intro tag tag' s s' c c' rest rest' hp h8 hp'
  refine ⟨_, _, _, exec_henc_block tag hp h8, rfl, rfl, fun hx => ?_⟩
  rw [exec_hdec_operand tag' hp' hx, answerOf_hdec_encodeBlock tag' 0 (take_eight_length hp.2 h8)]

/-- Settles O26: the syndrome of a codeword with one element inverted is that element's position. -/
theorem singleInversionIsCorrected : Obligations.SingleInversionIsCorrected := by
  intro tag tag' s s' c c' rest rest' p hp h8 hp' h1 h12
  refine ⟨_, _, _, exec_henc_block tag hp h8, rfl, rfl, fun hx => ?_⟩
  rw [exec_hdec_operand tag' hp' ((isFlip_iff ..).1 hx),
    answerOf_hdec_flipAt_encodeBlock tag' 0 (take_eight_length hp.2 h8) (by omega), Nat.sub_add_cancel h1]

/-- Settles O27: the two positions add up in the syndrome, and a third inversion leads to another codeword or to
none. -/
theorem twoInversionsAreNeverRecovered : Obligations.TwoInversionsAreNeverRecovered := by
  intro tag s c rest d x p q hp hd hp1 hp12 hq1 hq12 hpq hx hr
  rw [isFlip_iff, codeword_eq hd] at hx
  rw [isFlip_iff, hx] at hr
  have hxor : p ^^^ q ≠ 0 := fun h => hpq (Nat.xor_eq_zero_iff.1 h)
  have hp' : p ^^^ q ≠ p := by simpa using Nat.ne_zero_of_lt hq1
  have hq' : p ^^^ q ≠ q := by simpa using Nat.ne_zero_of_lt hp1
  have hlen : (flipAt (flipAt (encodeBlock d) (p - 1)) (q - 1)).length = 12 := by simp
  have hs : syndrome (flipAt (flipAt (encodeBlock d) (p - 1)) (q - 1)) = p ^^^ q := by
    rw [syndrome_flipAt (by simp) (by omega), syndrome_flipAt (by simp) (by omega), syndrome_encodeBlock hd,
      Nat.sub_add_cancel hp1, Nat.sub_add_cancel hq1, Nat.zero_xor]
  rw [exec_hdec_operand tag hp hr]
  refine ⟨hxor, fun h13 => ?_, fun h12 => ?_⟩
  · rw [answerOf_hdec_of_le_syndrome tag 0 hlen (hs ▸ h13), hs]
  · have h1 : 1 ≤ p ^^^ q := Nat.one_le_iff_ne_zero.2 hxor
    rw [answerOf_hdec_of_syndrome_le tag 0 hlen (hs ▸ h1) (hs ▸ h12)]
    have hzero := syndrome_flipAt_syndrome hlen (hs ▸ h1) (hs ▸ h12)
    rw [hs] at hzero ⊢
    exact ⟨_, extractData_flipAt_ne_of_two_inversions (by omega) (by omega) (by omega) hzero, hp', hq', rfl⟩

/-- Settles O28: the answers are the codewords, of a linear code whose nonzero codewords have three ones or more. -/
theorem hencIsLinearWithDistanceThree : Obligations.HencIsLinearWithDistanceThree := by
  intro tag s c1 c2 c3 rest hc1 hc2 hc3 h1 h2 h3
  have hd1 := take_eight_length hc1 h1
  have hd2 := take_eight_length hc2 h2
  have presents {c : Command} (hc : c.wf = true) : Presents { s with commands := c :: rest } c rest := ⟨rfl, hc⟩
  refine ⟨_, _, _, _, _, _, exec_henc_block tag (presents hc1) h1, rfl, exec_henc_block tag (presents hc2) h2, rfl,
    rfl, rfl, three_le_distance_encodeBlock hd1 hd2, fun hsum => ?_⟩
  rw [exec_henc_block tag (presents hc3) h3, hsum, encodeBlock_zipWith_xor hd1 hd2]
  rfl

/-- Settles O29: HDEC answers OK when the syndrome is at most 12, and then the block is a codeword or becomes one by the
inversion of the element the syndrome names. -/
theorem hdecOkIffWithinOneInversionOfCodeword : Obligations.HdecOkIffWithinOneInversionOfCodeword := by
  intro tag s c rest hp h12
  have hlen : (c.din.take 12).length = 12 := h12 ▸ operandOf_length hp.2
  have within {d : Bitstring} (hd : d.length = 8) := answerOf_hdec_of_distance_le_one tag hd hlen
  refine ⟨_, _, exec_hdec_operand tag hp (congrArg c.din.take h12), rfl,
    ⟨exists_codeword_of_answerOf_hdec_ok tag hlen, ?_⟩, fun d hd h => (within hd h).2⟩
  rintro ⟨d, hd, h⟩
  exact (within hd h).1

/-- Settles O30: the exclusive OR of the positions is the syndrome, which HDEC reports or records. -/
theorem reportedSyndromeIsXorOfPositions : Obligations.ReportedSyndromeIsXorOfPositions := by
  intro tag s c rest x hp h12 hx
  have hlen : (c.din.take 12).length = 12 := h12 ▸ operandOf_length hp.2
  rw [xor_of_positions_eq_syndrome hlen] at hx
  have hnat : x.toNat = syndrome (c.din.take 12) := by
    rw [hx, BitVec.toNat_ofNat, Nat.mod_eq_of_lt (syndrome_lt _)]
  refine ⟨_, _, exec_hdec_operand tag hp (congrArg c.din.take h12), rfl, fun hle => ?_, fun hge => ?_⟩
  · rw [hnat] at hle
    rw [hx]
    rcases Nat.eq_zero_or_pos (syndrome (c.din.take 12)) with h0 | h1
    · rw [answerOf_hdec_of_syndrome_eq_zero tag 0 hlen h0, h0]
      exact ⟨rfl, rfl⟩
    · rw [answerOf_hdec_of_syndrome_le tag 0 hlen h1 hle]
      exact ⟨rfl, rfl⟩
  · rw [answerOf_hdec_of_le_syndrome tag 0 hlen (hnat ▸ hge), ← hx]
    exact ⟨rfl, rfl⟩

end

section
/-! PROOFS. The noise unit: one draw, one inverted element, whatever the operand holds; the statements of R100 and of
41_noise.md sections 2 and 3 settled. -/

namespace Sys2Proof.Machine

open Sys2Proof.Safety

/-- 41_noise.md R100: the record of a successful NFLIP. -/
theorem flippedResponse_eq {d : Bitstring} {n : Nat} (h : d.length = n) (k : Nat) :
    flippedResponse (flipAt d k) k =
      { statusOnly .ok with dlen := some n, dout := some (flipAt d k), flipIdx := some k } := by
  simp [flippedResponse, bareResponse, statusOnly, h]

/-- NFLIP on an operand that is not empty: some index of it is drawn, that element inverted and the index reported; the
next supplied index, if there is one, and at most one free draw are used up. -/
theorem exec_nflip_flips {s : State} {c : Command} {rest : List Command} (tag : TagField) (hp : Presents s c rest)
    (h : 1 ≤ c.len) :
    ∃ k n : Nat, k < c.len ∧ n ≤ 1 ∧ exec (.nflip tag) s = .next
      { afterAnswer s rest
          { statusOnly .ok with dlen := some c.len, dout := some (flipAt (c.din.take c.len) k), flipIdx := some k } with
        noise := s.noise.tail, freeDraws := s.freeDraws + n } := by
  obtain ⟨hs, hc⟩ := hp
  obtain ⟨m, hm⟩ := Nat.exists_eq_add_of_le' h
  obtain ⟨hlt, hdraw⟩ := drawIndex_spec m (s.setCommands rest)
  have hexec := execNflip_drawn tag hs hc hm
  rw [flippedResponse_eq (operandOf_length hc)] at hexec
  rcases hdraw with e | e <;> rw [e] at hexec
  · exact ⟨_, 0, hm ▸ hlt, by decide, hexec⟩
  · exact ⟨_, 1, hm ▸ hlt, le_rfl, hexec⟩

/-- NFLIP with an index of the operand supplied: that index is the draw. -/
theorem exec_nflip_supplied {s : State} {c : Command} {rest : List Command} {k : Nat} {ks : List Nat} (tag : TagField)
    (hp : Presents s c rest) (hn : s.noise = k :: ks) (hk : k < c.len) :
    exec (.nflip tag) s = .next
      { afterAnswer s rest
          { statusOnly .ok with dlen := some c.len, dout := some (flipAt (c.din.take c.len) k), flipIdx := some k } with
        noise := ks } := by
  obtain ⟨hs, hc⟩ := hp
  obtain ⟨m, hm⟩ := Nat.exists_eq_add_of_le' (Nat.one_le_of_lt hk)
  have hexec := execNflip_drawn tag hs hc hm
  rw [drawIndex_supplied (s := s.setCommands rest) hn (hm ▸ hk), flippedResponse_eq (operandOf_length hc)] at hexec
  exact hexec

/-- Two elements inverted are two differences. -/
theorem distance_flipAt_flipAt {d : Bitstring} {k k' : Nat} (hk : k < d.length) (hk' : k' < d.length) (h : k' ≠ k) :
    distance d (flipAt (flipAt d k) k') = 2 := by
  rw [distance_flipAt (flipAt_length d k) hk' (flipAt_getElem?_ne d h), distance_flipAt rfl hk rfl, distance_self]

/-- The `j`-th block of a concatenation of blocks of `n` elements. -/
theorem block_of_flatten {n j : Nat} {blocks : List Bitstring} {b : Bitstring} (hlen : ∀ x ∈ blocks, x.length = n)
    (hj : blocks[j]? = some b) : (blocks.flatten.drop (n * j)).take n = b := by
  induction blocks generalizing j with
  | nil => simp at hj
  | cons x blocks ih =>
    obtain ⟨hx, hblocks⟩ : x.length = n ∧ ∀ y ∈ blocks, y.length = n := by simpa using hlen
    rw [List.flatten_cons]
    cases j with
    | zero =>
      obtain rfl : x = b := by simpa using hj
      simp [hx]
    | succ j =>
      rw [Nat.mul_succ, Nat.add_comm, ← List.drop_drop, List.drop_left' hx]
      exact ih hblocks (by simpa using hj)

/-- 41_noise.md section 3: one element inverted in a concatenation of blocks of `n` elements is one inverted in the
block that holds it. -/
theorem flipAt_flatten {n : Nat} (k : Nat) {blocks : List Bitstring} (hn : 0 < n)
    (hlen : ∀ x ∈ blocks, x.length = n) :
    flipAt blocks.flatten k = (blocks.modify (k / n) fun x => flipAt x (k % n)).flatten := by
  induction blocks generalizing k with
  | nil => simp [flipAt]
  | cons x blocks ih =>
    obtain ⟨hx, hblocks⟩ : x.length = n ∧ ∀ y ∈ blocks, y.length = n := by simpa using hlen
    by_cases hk : k < n
    · rw [Nat.div_eq_of_lt hk, Nat.mod_eq_of_lt hk, List.flatten_cons, flipAt_append_left _ _ (hx ▸ hk)]
      rfl
    · obtain ⟨k, rfl⟩ := Nat.exists_eq_add_of_le (Nat.le_of_not_lt hk)
      rw [Nat.add_div_left _ hn, Nat.add_mod_left, List.modify_succ_cons, List.flatten_cons, List.flatten_cons,
        ← ih k hblocks, ← hx, flipAt_append_right]

/-- An inverted element leaves each block as long as it was. -/
theorem length_of_mem_modify_flipAt {n m k : Nat} {blocks : List Bitstring} (hlen : ∀ x ∈ blocks, x.length = n) :
    ∀ x ∈ blocks.modify m (fun y => flipAt y k), x.length = n := by
  intro x hx
  obtain ⟨i, hi⟩ := List.mem_iff_getElem?.1 hx
  rw [List.getElem?_modify] at hi
  obtain ⟨y, hy, rfl⟩ := Option.map_eq_some_iff.1 hi
  have hy := hlen y (List.mem_of_getElem? hy)
  split_ifs
  · exact (flipAt_length y k).trans hy
  · exact hy

/-- 41_noise.md section 3: of a concatenation of codewords with one element inverted, each block is its codeword, but
for the one block that holds the element. -/
theorem block_of_flipAt_codewords {blocks : List Bitstring} {d : Bitstring} {j : Nat} (k : Nat)
    (hlen : ∀ x ∈ blocks, x.length = 8) (hj : blocks[j]? = some d) :
    ((flipAt (blocks.map codeword).flatten k).drop (12 * j)).take 12 =
      if j = k / 12 then flipAt (encodeBlock d) (k % 12) else encodeBlock d := by
  have hd : codeword d = encodeBlock d := codeword_eq (hlen d (List.mem_of_getElem? hj))
  have hcode : ∀ x ∈ blocks.map codeword, x.length = 12 := by simp [codeword]
  rw [flipAt_flatten k (by decide) hcode]
  refine block_of_flatten (length_of_mem_modify_flipAt hcode) ?_
  simp [List.getElem?_modify, hj, hd, eq_comm (a := j)]

end Sys2Proof.Machine

open Sys2Proof Sys2Proof.Machine Sys2Proof.Safety

/-- Settles O31: an empty operand takes no draw, and any other has one element inverted at the index drawn. -/
theorem nflipInvertsOneDrawnElement : Obligations.NflipInvertsOneDrawnElement := by
  intro tag s c rest hp
  refine ⟨execNflip_empty tag hp.1 hp.2, fun h => ?_⟩
  obtain ⟨k, n, hk, hn, hexec⟩ := exec_nflip_flips tag hp h
  exact ⟨k, _, n, hk, (isFlip_iff ..).2 rfl, hn, hexec⟩

/-- Settles O32: a supplied index of the operand is the draw. -/
theorem everyIndexCanBeDrawn : Obligations.EveryIndexCanBeDrawn := by
  intro tag s c rest k ks hp hk
  exact ⟨_, (isFlip_iff ..).2 rfl, exec_nflip_supplied (s := { s with noise := k :: ks }) tag hp rfl hk⟩

/-- Settles O33: inverting one element twice restores it, and inverting two makes two differences. -/
theorem nflipTwiceRestoresOrDiffersInTwo : Obligations.NflipTwiceRestoresOrDiffersInTwo := by
  intro tag tag' s s' c c' rest rest' hp h hp'
  obtain ⟨k, n, hk, -, hexec⟩ := exec_nflip_flips tag hp h
  refine ⟨_, _, _, k, hexec, rfl, rfl, rfl, fun hx => ?_⟩
  have hlen : (c.din.take c.len).length = c.len := operandOf_length hp.2
  have hlen' : c'.len = c.len := by
    rw [← operandOf_length hp'.2, operandOf, hx, flipAt_length, hlen]
  obtain ⟨k', n', hk', -, hexec'⟩ := exec_nflip_flips tag' hp' (hlen' ▸ h)
  rw [hx] at hexec'
  refine ⟨_, _, _, k', hexec', rfl, rfl, rfl, ?_, fun hne => ?_⟩
  · rintro rfl
    exact flipAt_flipAt ..
  · exact distance_flipAt_flipAt (hk.trans_eq hlen.symm) (hk'.trans_eq (hlen'.trans hlen.symm)) hne

/-- Settles O34: the inverted element lies in one block, whose codeword HDEC corrects; the others are codewords. -/
theorem noiseOnCodewordsIsCorrected : Obligations.NoiseOnCodewordsIsCorrected := by
  intro tag s c rest blocks hp hblocks hne hop
  have hlen : c.len = 12 * blocks.length := by
    rw [← operandOf_length hp.2, operandOf, hop]
    simp [codeword, Function.comp_def, Nat.mul_comm]
  have hpos : 0 < blocks.length := List.length_pos_iff.2 hne
  obtain ⟨k, n, hk, -, hexec⟩ := exec_nflip_flips tag hp (by omega)
  refine ⟨_, _, _, k, hexec, rfl, rfl, rfl, hlen ▸ hk, fun j d tag' s' c' rest' hj hp' hc' => ?_⟩
  have hd : d.length = 8 := hblocks d (List.mem_of_getElem? hj)
  rw [hop, block_of_flipAt_codewords k hblocks hj] at hc'
  rw [exec_hdec_operand tag' hp' hc']
  by_cases hit : j = k / 12
  · rw [if_pos hit, answerOf_hdec_flipAt_encodeBlock tag' 0 hd (Nat.mod_lt _ (by decide))]
    simp [hit]
  · rw [if_neg hit, answerOf_hdec_encodeBlock tag' 0 hd]
    simp [hit]

end

section
/-! PROOFS. The line codes bit by bit: closed forms and transitions, where the level 0 occurs, and how the samples of a
stream are those of its parts; the statements of 42_linecode.md sections 1, 2 and 3 settled. -/

namespace Sys2Proof.Safety

/-! ### Samples by the parity of the ones -/

/-- 42_linecode.md R115: the sample of each bit, by the parity of the ones up to it. -/
theorem nrziReference_getElem? (up : Bool) (d : Bitstring) (i : Nat) :
    (nrziReference up d)[i]? = d[i]?.map fun _ => sampleOf (up ^^ oddOnes (d.take (i + 1))) := by
  induction d generalizing up i with
  | nil => rfl
  | cons x d ih =>
    cases i with
    | zero => cases x <;> simp [nrziReference, oddOnes]
    | succ i => cases x <;> simp [nrziReference, ih, oddOnes_cons]

/-- 42_linecode.md R117: the two samples of each bit, by the parity of the ones before it. -/
theorem diffManchesterReference_getElem? (up : Bool) {d : Bitstring} {i : Nat} {b : Bit} (h : d[i]? = some b) :
    (diffManchesterReference up d)[2 * i]? = some (sampleOf (up ^^ oddOnes (d.take i) ^^ !b)) ∧
      (diffManchesterReference up d)[2 * i + 1]? = some (sampleOf (up ^^ oddOnes (d.take i) ^^ b)) := by
  induction d generalizing up i with
  | nil => simp at h
  | cons x d ih =>
    have hx : diffManchesterReference up (x :: d) =
        sampleOf (up ^^ !x) :: sampleOf (up ^^ x) :: diffManchesterReference (up ^^ x) d := by
      cases x <;> simp [diffManchesterReference]
    cases i with
    | zero =>
      obtain rfl : x = b := by simpa using h
      simp [hx, oddOnes]
    | succ i => simpa [hx, Nat.mul_add, oddOnes_cons] using ih (up ^^ x) (by simpa using h)

/-- 42_linecode.md R117: the sample before each bit is the level the ones before it leave. -/
theorem sample_before_bit (up : Bool) {d : Bitstring} {i : Nat} {b : Bit} (h : d[i]? = some b) :
    (sampleOf up :: diffManchesterReference up d)[2 * i]? = some (sampleOf (up ^^ oddOnes (d.take i))) := by
  cases i with
  | zero => simp [oddOnes]
  | succ i =>
    have hi : i < d.length := (Nat.lt_succ_self i).trans (List.getElem?_eq_some_iff.1 h).1
    have hbefore := List.getElem?_eq_getElem hi
    rw [oddOnes_take_succ hbefore, ← Bool.xor_assoc]
    exact (diffManchesterReference_getElem? up hbefore).2

end Sys2Proof.Safety

namespace Sys2Proof.Machine

open Sys2Proof.Safety

/-! ### The level 0 -/

/-- 42_linecode.md section 3: only AMI emits the level 0. -/
theorem zero_not_mem_samplesFrom {v : Variant} (hv : v ≠ .ami) (l : Level) (d : Bitstring) :
    Sample.zero ∉ samplesFrom v l d := by
  have hbit : ∀ (b : Bit) (l : Level), Sample.zero ∉ (stepBit v b l).1 := by
    intro b l
    cases v with
    | ami => exact absurd rfl hv
    | _ => cases b <;> cases l <;> decide
  induction d generalizing l with
  | nil => simp [samplesFrom]
  | cons b d ih => simp [samplesFrom, hbit, ih]

/-- 42_linecode.md R116: AMI emits the level 0 exactly for the 0 bits. -/
theorem samplesFrom_ami_eq_zero_iff (d : Bitstring) (j : Nat) :
    (samplesFrom .ami .neg d)[j]? = some .zero ↔ d[j]? = some false := by
  have href : samplesFrom .ami .neg d = amiReference false d := (amiReference_eq false d).symm
  rw [href, amiReference_getElem?]
  rcases d[j]? with - | - | - <;> simp [sampleOf_ne_zero]

/-- An answer with samples is that of a line code. -/
theorem answerOf_sout_eq_some {i : Instr} {d : Bitstring} {k : Nat} {x : List Sample}
    (h : (answerOf i d k).sout = some x) : ∃ v, i = lineInstr v ∧ x = samplesFrom v .neg d := by
  rcases answerOf_cases i d k with ⟨hok, -⟩ | ⟨f, hf⟩
  · rcases answerOf_of_status_eq_ok hok with
      ⟨-, y, -, e⟩ | ⟨-, y, p, -, e⟩ | ⟨-, e⟩ | ⟨-, v, hv, e⟩ <;> rw [e] at h
    · simp [encodedResponse, bareResponse] at h
    · simp [decodedResponse, bareResponse] at h
    · simp [flippedResponse, bareResponse] at h
    · exact ⟨v, hv, by simpa [samplesResponse] using h.symm⟩
  · simp [hf, faultResponse, bareResponse] at h

/-! ### The parts of a stream -/

/-- LNRZL and LMAN leave the level as it is. -/
theorem levelAfter_eq_self {v : Variant} (hv : v = .nrzL ∨ v = .manchester) (l : Level) (d : Bitstring) :
    levelAfter v l d = l := by
  have hbit : ∀ b : Bit, (stepBit v b l).2 = l := by
    rcases hv with rfl | rfl <;> intro b <;> cases b <;> rfl
  induction d with
  | nil => rfl
  | cons b d ih => rw [levelAfter, hbit, ih]

/-- The running level is back at its start exactly after an even number of ones. -/
theorem levelAfter_neg_iff (v : Variant) (a : Bitstring) :
    levelAfter v .neg a = .neg ↔ v = .nrzL ∨ v = .manchester ∨ oddOnes a = false := by
  by_cases hv : v = .nrzL ∨ v = .manchester
  · simp [levelAfter_eq_self hv, ← or_assoc, hv]
  · have hrunning : v = .nrzI ∨ v = .ami ∨ v = .diffManchester := by cases v <;> simp at hv ⊢
    have hlevel : levelAfter v .neg a = levelOf (oddOnes a) :=
      (levelAfter_running hrunning false a).trans (by rw [Bool.false_xor])
    rw [hlevel, ← or_assoc, or_iff_right hv]
    cases oddOnes a <;> decide

/-- 42_linecode.md section 3: the samples of `a ++ b` are those of `a` and of `b`, for every `b`, exactly when `a`
leaves the level at its start. -/
theorem samplesFrom_append_iff (v : Variant) (a : Bitstring) :
    (∀ b, samplesFrom v .neg (a ++ b) = samplesFrom v .neg a ++ samplesFrom v .neg b) ↔
      v = .nrzL ∨ v = .manchester ∨ oddOnes a = false := by
  simp only [samplesFrom_append, List.append_cancel_left_eq]
  rw [← levelAfter_neg_iff]
  have one_tells_level : ∀ v, samplesFrom v .pos [true] = samplesFrom v .neg [true] →
      v = .nrzL ∨ v = .manchester := by
    intro v
    cases v <;> decide
  refine ⟨fun h => ?_, fun h b => by rw [h]⟩
  cases hlevel : levelAfter v .neg a with
  | neg => rfl
  | pos =>
    have hv := one_tells_level v (hlevel ▸ h [true])
    rw [← hlevel, levelAfter_eq_self hv]

/-- The samples a line-code operation answers are those of its operand. -/
theorem eq_samplesFrom_of_exec_lineInstr {s : State} {c : Command} {rest : List Command} {v : Variant}
    {x : List Sample} (hp : Presents s c rest)
    (h : exec (lineInstr v) s = .next (afterAnswer s rest (lineAnswer x))) :
    x = samplesFrom v .neg (c.din.take c.len) := by
  rw [exec_lineInstr v hp, Host.Outcome.next.injEq, afterAnswer_inj] at h
  simpa [lineAnswer] using (congrArg Response.sout h).symm

@[simp] theorem lineInstr_inj {v w : Variant} : lineInstr v = lineInstr w ↔ v = w := by
  cases v <;> cases w <;> decide

/-- A command whose operand is `d`. -/
def commandOn (d : Bitstring) : Command := { cmd := 0#5, len := d.length, din := d }

@[simp] theorem commandOn_operand (d : Bitstring) : (commandOn d).din.take (commandOn d).len = d :=
  List.take_length

/-- After reset, the host presents it in good form. -/
theorem presents_commandOn (d : Bitstring) : Presents (present (commandOn d) State.reset) (commandOn d) [] :=
  ⟨rfl, by simp [Command.wf, commandOn]⟩

end Sys2Proof.Machine

open Sys2Proof Sys2Proof.Machine Sys2Proof.Safety

/-- Settles O40: the running level at a bit is up when the number of ones up to it is odd. -/
theorem runningLevelClosedForms : Obligations.RunningLevelClosedForms := by
  intro s c rest hp
  have hn : samplesFrom .nrzI .neg (c.din.take c.len) = nrziReference false (c.din.take c.len) :=
    (nrziReference_eq false _).symm
  have ha : samplesFrom .ami .neg (c.din.take c.len) = amiReference false (c.din.take c.len) :=
    (amiReference_eq false _).symm
  refine ⟨_, _, _, _, _, _, exec_lineInstr .nrzI hp, rfl, rfl, exec_lineInstr .ami hp, rfl, rfl, fun i b hb => ?_⟩
  have hi : i < c.len := (List.getElem?_eq_some_iff.1 hb).1.trans_eq (operandOf_length hp.2)
  have htake : (c.din.take c.len).take (i + 1) = c.din.take (i + 1) := by
    rw [List.take_take, Nat.min_eq_left hi]
  rw [hn, ha, nrziReference_getElem?, amiReference_getElem?, hb, htake, Bool.false_xor]
  exact ⟨rfl, rfl⟩

/-- Settles O41: a bit's samples are the level before it and the opposite, a 0 bit's the other way round. -/
theorem ldmanTransitions : Obligations.LdmanTransitions := by
  intro s c rest hp
  refine ⟨_, _, _, exec_lineInstr .diffManchester hp, rfl, rfl, fun i b hb => ?_⟩
  have href : samplesFrom .diffManchester .neg (c.din.take c.len) = diffManchesterReference false (c.din.take c.len) :=
    (diffManchesterReference_eq false _).symm
  rw [href]
  obtain ⟨hfirst, hsecond⟩ := diffManchesterReference_getElem? false hb
  refine ⟨_, _, _, sample_before_bit false hb, hfirst, hsecond, sampleOf_ne_zero _, ?_, ?_⟩
  · rw [opposite_sampleOf]
    cases b <;> simp
  · cases b <;> simp

/-- Settles O43: an answer with samples is that of a line code, and of these AMI alone emits the level 0. -/
theorem zeroLevelOnlyFromLami : Obligations.ZeroLevelOnlyFromLami := by
  intro i s t c rest r x ⟨hs, hc⟩ hexec hresp hx
  obtain rfl : afterExec i c rest s = t := by simpa [exec_eq_afterExec hs (.inl hc)] using hexec
  obtain rfl : answerIn i c rest s = r := by simpa using hresp
  obtain ⟨v, rfl, rfl⟩ := answerOf_sout_eq_some hx
  refine ⟨fun hi => zero_not_mem_samplesFrom (mt (lineInstr_inj (w := .ami)).2 hi) .neg _, fun hi j => ?_⟩
  obtain rfl : v = .ami := lineInstr_inj.1 hi
  exact samplesFrom_ami_eq_zero_iff _ j

/-- Settles O44: the second part starts at the level the first leaves, which is the initial one after an even number of
ones. -/
theorem splittingAStream : Obligations.SplittingAStream := by
  intro i a hi
  obtain ⟨v, rfl⟩ := (line_instr_iff i).1 hi
  have hvariant : (lineInstr v = .lnrzl ∨ lineInstr v = .lman ∨ oddOnes a = false) ↔
      (v = .nrzL ∨ v = .manchester ∨ oddOnes a = false) :=
    or_congr (lineInstr_inj (w := .nrzL)) (or_congr_left (lineInstr_inj (w := .manchester)))
  rw [hvariant, ← samplesFrom_append_iff]
  refine ⟨fun h b => ?_, fun h b s1 s2 s3 c1 c2 c3 rest1 rest2 rest3 hp1 hp2 hp3 ha hb hab => ?_⟩
  · obtain ⟨x, y, hx, hy, hxy⟩ := h b _ _ _ _ _ _ _ _ _ (presents_commandOn a) (presents_commandOn b)
      (presents_commandOn (a ++ b)) (commandOn_operand a) (commandOn_operand b) (commandOn_operand (a ++ b))
    have hx := eq_samplesFrom_of_exec_lineInstr (presents_commandOn a) hx
    have hy := eq_samplesFrom_of_exec_lineInstr (presents_commandOn b) hy
    have hxy := eq_samplesFrom_of_exec_lineInstr (presents_commandOn (a ++ b)) hxy
    rw [commandOn_operand] at hx hy hxy
    rw [← hx, ← hy, hxy]
  · refine ⟨_, _, exec_lineInstr v hp1, exec_lineInstr v hp2, ?_⟩
    rw [exec_lineInstr v hp3, ha, hb, hab, h b]

/-- Settles O45: the fold emits the samples of a beginning first. -/
theorem samplesDependOnEarlierBitsOnly : Obligations.SamplesDependOnEarlierBitsOnly := by
  intro i s s' c c' rest rest' hi hp hp' hprefix
  obtain ⟨v, rfl⟩ := (line_instr_iff i).1 hi
  refine ⟨_, _, exec_lineInstr v hp, exec_lineInstr v hp', ?_⟩
  obtain ⟨b, hb⟩ := hprefix
  rw [← hb, samplesFrom_append]
  exact List.prefix_append ..

end
